-- ==== Sys2Proof/Word.lean ====
section
/-! DEFINITION. The word types of the Huffman codec core and its bit strings (spec/00_scope.md R7 to R10). -/

namespace Sys2Proof

/-- A 32-bit word: a command word, a bus word, a counter (00_scope.md R7, R8). -/
abbrev Word := BitVec 32

/-- A byte: a symbol, a container byte, an output byte (00_scope.md R7, R10). -/
abbrev Byte := BitVec 8

/-- An index into the node arena, 9 bits (00_scope.md R7). -/
abbrev ArenaIdx := BitVec 9

/-- A bit string, first (leftmost) bit first (00_scope.md R9). -/
abbrev Bits := List Bool

/-- The 256 byte values in ascending order: the symbol order of 00_scope.md R12. -/
def allBytes : List Byte := (List.range 256).map (BitVec.ofNat 8)

end Sys2Proof
end

