-- ==== Sys2Proof/Config.lean ====
section
/-! DEFINITION. What an implementation of HCC fixes (spec/00_scope.md R6), the constants of its register window, and the
free values the spec leaves open (spec/20_memory.md R56, spec/60_exceptions.md R238). -/

namespace Sys2Proof

/-- The implementation parameters of 00_scope.md R6. A device carries its own in `State.params`, so that a statement over
all states is a statement over all devices (log 4). -/
structure Params where
  /-- MAX_LEN: the most symbols one encode accepts; the capacity of SYMBUF. -/
  maxLen : Nat
  /-- MAX_CLEN: the capacity of the container buffer CBUF. -/
  maxClen : Nat
  /-- OUT_DEPTH: the capacity of the output FIFO. -/
  outDepth : Nat
deriving DecidableEq, Repr

/-- The legal ranges of 00_scope.md R6. -/
abbrev Params.wf (p : Params) : Prop :=
  1 ≤ p.maxLen ∧ p.maxLen ≤ 2 ^ 32 - 1 ∧ 1 ≤ p.maxClen ∧ p.maxClen ≤ 2 ^ 32 - 1 ∧ 1 ≤ p.outDepth

/-- The parameters `State.reset` carries: the largest buffers R6 allows, and an OUT as deep as OUTCNT can report.
DESIGN CHOICE (log 4): the spec fixes none. -/
def Params.largest : Params := { maxLen := 2 ^ 32 - 1, maxClen := 2 ^ 32 - 1, outDepth := 2 ^ 32 - 1 }

namespace Config

/-- The arena index NIL, "no node" (10_state.md R31). -/
def nil : ArenaIdx := 0x1FF

/-- The delimiter '|', which is no valid symbol (45_container.md R191). -/
def delimiter : Byte := 0x7C

/-- The constant the ID register reads as (10_state.md R46). -/
def idWord : Word := 0x48434331

/-- The n-th free draw of a window field read while BUSY = 1 (20_memory.md R56): nothing is known of it (log 9). -/
opaque freeRead : Nat → Word

/-- The n-th free draw of the whole decode table, as (key, len, code) records: what DT holds after a failing command that writes
it (60_exceptions.md R238). Nothing is known of it (log 7). -/
opaque freeDt : Nat → Vector (Byte × Byte × BitVec 255) 255

end Config

end Sys2Proof
end

