-- ==== Sys2Proof/Syntax.lean ====
section
/-! DEFINITION. The commands of HCC, one constructor per row of spec/opcode_table.json (spec/30_encoding.md R73), and the raw
fields of a command word (R70). -/

namespace Sys2Proof

/-- A legal command with its operand IMM8, if it has one (30_encoding.md R71, R73). -/
inductive Instr where
  /-- NOP (40_control.md R95). -/
  | nop
  /-- CLR (40_control.md R96). -/
  | clr
  /-- CNT sym (41_frequency_counter.md R111). -/
  | cnt (sym : Byte)
  /-- RDHIST sym (41_frequency_counter.md R112). -/
  | rdhist (sym : Byte)
  /-- BUILD (42_tree_builder.md R135). -/
  | build
  /-- GEN (43_code_table.md R150). -/
  | gen
  /-- RDCODE sym (43_code_table.md R153). -/
  | rdcode (sym : Byte)
  /-- HDR (45_container.md R194). -/
  | hdr
  /-- PACK (44_bit_packer.md R176). -/
  | pack
  /-- ENC (45_container.md R202). -/
  | enc
  /-- DIN byte (45_container.md R203). -/
  | din (byte : Byte)
  /-- DHDR (45_container.md R204). -/
  | dhdr
  /-- DPAY (45_container.md R205). -/
  | dpay
  /-- DEC (45_container.md R207). -/
  | dec
deriving DecidableEq, Repr

/-- The three fields of a command word (30_encoding.md R70). -/
structure Fields where
  /-- OPC, bits 7:0. -/
  opc : Byte
  /-- IMM8, bits 15:8. -/
  imm8 : Byte
  /-- RSV, bits 31:16. -/
  rsv : BitVec 16
deriving DecidableEq, Repr

/-- The ways a command word can be illegal (30_encoding.md R74 case 1, R76). -/
inductive Illegal where
  /-- OPC is one of the 242 unassigned values. -/
  | unassignedOpcode
  /-- RSV is not 0. -/
  | reservedBits
  /-- OPC names a command without operand and IMM8 is not 0. -/
  | operandNotZero
deriving DecidableEq, Repr

end Sys2Proof
end

