-- ==== Sys2Proof/Machine/State.lean ====
section
/-! DEFINITION. The state of HCC, field by field from spec/10_state.md, with the host's side of the bus, and its reset values
(R47). Plain data throughout. -/

namespace Sys2Proof.Machine

open Sys2Proof

/-- The error codes of 60_exceptions.md R230. -/
inductive ErrCode where
  /-- No error. -/
  | none
  /-- Reserved for a host wrapper; HCC never raises it (R231). -/
  | notFound
  /-- BUILD or ENC with nothing counted (R232). -/
  | emptyInput
  /-- DHDR or DEC on a malformed header (R233). -/
  | corruptedHeader
  /-- DPAY or DEC on a malformed payload (R234). -/
  | corruptedPayload
  /-- CNT 0x7C (R235). -/
  | invalidSymbol
  /-- CNT with SYMBUF full, DIN with CBUF full (R235). -/
  | capacity
  /-- An illegal word (R236). -/
  | illegalCmd
  /-- A command in a phase where it is not legal (R237). -/
  | sequence
deriving DecidableEq, Repr

/-- The phases of 10_state.md R23. Codes 6, 7 and 11 to 14 are never written. -/
inductive Phase where
  | idle
  | eCount
  | eBuilt
  | eGen
  | eHdr
  | eDone
  | dLoad
  | dHdr
  | dDone
  | error
deriving DecidableEq, Repr

/-- The kind field of an arena record (10_state.md R31); value 3 is never written. -/
inductive NodeKind where
  /-- 0: unused. -/
  | empty
  /-- 1: a leaf. -/
  | leaf
  /-- 2: an internal node. -/
  | internal
deriving DecidableEq, Repr

/-- One record of the node arena (10_state.md R31). -/
structure Node where
  kind   : NodeKind
  weight : Word
  rep    : Byte
  sym    : Byte
  left   : ArenaIdx
  right  : ArenaIdx
deriving DecidableEq, Repr

/-- The unused record: what ARENA holds at reset (log 5). -/
def Node.unused : Node :=
  { kind := .empty, weight := 0, rep := 0, sym := 0, left := Config.nil, right := Config.nil }

/-- One entry of the code table (10_state.md R33): bit string position j stands in field bit 253 − j. -/
structure CtEntry where
  valid : Bool
  len   : Byte
  code  : BitVec 254
deriving DecidableEq, Repr

/-- One entry of the decode table (10_state.md R36): position j of the code stands in field bit 254 − j (log 16). -/
structure DtEntry where
  key  : Byte
  len  : Byte
  code : BitVec 255
deriving DecidableEq, Repr

/-- A byte array of parameter size (SYMBUF, CBUF): the listed bytes, indices strictly rising, none equal to what an unlisted
index reads as. -/
abbrev Memory := List Host.Cell

/-- What an unlisted index of SYMBUF or CBUF reads as. DESIGN CHOICE (log 5): R47 leaves it unspecified and no rule reads it;
93_implementation_defined.md U2 lets a model hold 0. -/
def Memory.fill : Byte := 0x00

/-- The canonical form of a byte array. -/
abbrev Memory.wf (m : Memory) : Prop :=
  m.Pairwise (fun c d => c.1 < d.1) ∧ ∀ c ∈ m, c.2 ≠ Memory.fill

/-- What the host does next (00_scope.md R5, 20_memory.md R52, 70_reset_and_hazards.md R260). The list of these in
`State.host` says, access by access, how the host and the block interleave (log 1). -/
inductive HostEvent where
  /-- The host does nothing while the block takes one step. -/
  | pass
  /-- A bus read of `width` bits at byte offset `offset`. -/
  | read (width offset : Nat)
  /-- A bus write of `value`, `width` bits wide, at byte offset `offset`. -/
  | write (width offset : Nat) (value : Word)
  /-- The reset input is asserted. -/
  | reset
  /-- Another bus master writes `value` to CMD: outside the spec (60_exceptions.md R249). -/
  | otherMaster (value : Word)
  /-- The host loop SYNC (30_encoding.md R80); `gaps` says how many steps the block takes after each pass, one when the list
  has run out (log 14). -/
  | sync (gaps : List Nat)
  /-- The host loop WAIT (30_encoding.md R80), `gaps` as for SYNC (log 14). -/
  | wait (gaps : List Nat)
deriving DecidableEq, Repr

/-- One window read the host has made: the offset and the word it returned. -/
structure BusRead where
  offset : Nat
  value  : Word
deriving DecidableEq, Repr

/-- The state of HCC and of its host. -/
structure State where
  /-- CMDREG (10_state.md R21). -/
  cmdreg  : Word
  /-- PENDING (R21). -/
  pending : Bool
  /-- ERR (R22). -/
  err     : ErrCode
  /-- PHASE (R23). -/
  phase   : Phase
  /-- TOTAL (R24). -/
  total   : Word
  /-- TABN (R25). -/
  tabn    : Byte
  /-- PAD (R26). -/
  pad     : Byte
  /-- BITLEN (R27). -/
  bitlen  : BitVec 40
  /-- CLEN (R28). -/
  clen    : Word
  /-- HIST (R29). -/
  hist    : Vector Word 256
  /-- SYMBUF (R30). -/
  symbuf  : Memory
  /-- ARENA (R31). -/
  arena   : Vector Node 509
  /-- ROOT (R32). -/
  root    : ArenaIdx
  /-- CT (R33). -/
  ct      : Vector CtEntry 256
  /-- ORDER (R34). -/
  order   : Vector Byte 255
  /-- CBUF (R35). -/
  cbuf    : Memory
  /-- DT (R36). -/
  dt      : Vector DtEntry 255
  /-- PPOS (R37). -/
  ppos    : Word
  /-- PEND_OUT, oldest byte first (R38). -/
  pendOut : List Byte
  /-- OUT, head first (R39). -/
  out     : List Byte
  /-- The device's parameters (00_scope.md R6): the model's own field, which no step changes (log 4). -/
  params  : Params
  /-- What the host does from here on, next event first: the model's own field (log 1). -/
  host    : List HostEvent
  /-- The window reads the host has made, oldest first: the model's own field (log 13). -/
  reads   : List BusRead
  /-- How many free draws have been made: the model's own field (log 9). -/
  freeCount : Nat
  /-- How many reads the host had made when the last CLR or reset took effect, where its operation opens
  (70_reset_and_hazards.md R274): the model's own field (log 23). -/
  opened  : Nat
deriving DecidableEq, Repr

/-- Why the machine could stop with a fault: it never does. The errors of 60_exceptions.md R230 are recorded in ERR and the
machine goes on (R252), so no step of the model raises a fault and the type has no constructor (log 21). Safe: no claim can
rest on a fault that is not there. -/
inductive Fault where
deriving DecidableEq, Repr

/-- Why a step can have no meaning. -/
inductive Refusal where
  /-- Raised by `exec` for an instruction without a meaning yet; no arm answers so. Safe. -/
  | notModelled (mnemonic : String)
  /-- Raised by `step` for a host access that is not 32 bits wide or not aligned: outside the spec (20_memory.md R53).
  Safe: such an access has no claim. -/
  | accessOutsideSpec
  /-- Raised by `step` for a CMD write of a second bus master: outside the spec (60_exceptions.md R249). Safe. -/
  | secondBusMaster
deriving DecidableEq, Repr

/-- The state right after reset of a device with parameters `p` (10_state.md R47). The contents R47 leaves unspecified are
DESIGN CHOICE (log 5). -/
def State.resetWith (p : Params) : State :=
  { cmdreg := 0, pending := false, err := .none, phase := .idle, total := 0, tabn := 0, pad := 0, bitlen := 0, clen := 0
    hist := Vector.replicate 256 0
    symbuf := []
    arena := Vector.replicate 509 Node.unused
    root := Config.nil
    ct := Vector.replicate 256 { valid := false, len := 0, code := 0 }
    order := Vector.replicate 255 0
    cbuf := []
    dt := Vector.replicate 255 { key := 0, len := 0, code := 0 }
    ppos := 0, pendOut := [], out := [], params := p, host := [], reads := [], freeCount := 0
    opened := 0 }

/-- The machine right after reset (10_state.md R47), on the device with the largest parameters (log 4), its host silent. -/
def State.reset : State := State.resetWith Params.largest

end Sys2Proof.Machine
end

