-- ==== Sys2Proof/Machine/Operands.lean ====
section
/-! DEFINITION. Bit strings and bytes (spec/44_bit_packer.md R170 to R173), codes in their register fields (spec/10_state.md
R33, R36), and reads of the internal arrays at the operand forms the commands use (spec/20_memory.md R51). -/

namespace Sys2Proof.Machine

open Sys2Proof

/-! ## Bit strings (44_bit_packer.md) -/

/-- A bit string as a number, first bit most significant. -/
def bitsToNat (s : Bits) : Nat := s.foldl (fun n b => 2 * n + b.toNat) 0

/-- BitsToByte (R170): bit j of an 8-bit string lands in byte bit 7 − j. -/
def bitsToByte (s : Bits) : Byte := BitVec.ofNat 8 (bitsToNat s)

/-- ByteToBits (R170): x[7], x[6], …, x[0]. -/
def byteToBits (x : Byte) : Bits := (List.range 8).map fun j => x.getLsbD (7 - j)

/-- Pad (R171): the number of zero bits that complete a string of `n` bits to whole bytes. -/
def padLength (n : Nat) : Nat := (8 - n % 8) % 8

/-- `0^k` (00_scope.md R9). -/
def zeroBits (k : Nat) : Bits := List.replicate k false

/-- The first `k` bytes of a bit string, eight bits each, first bit first. -/
def takeBytes : Nat → Bits → List Byte
  | 0, _ => []
  | k + 1, s => bitsToByte (s.take 8) :: takeBytes k (s.drop 8)

/-- The whole bytes of a bit string padded with zero bits at its end (R172, R153). -/
def paddedBytes (s : Bits) : List Byte :=
  let t := s ++ zeroBits (padLength s.length)
  takeBytes (t.length / 8) t

/-- Pack (R172): the padding length and the packed bytes. -/
def packBits (s : Bits) : Nat × List Byte := (padLength s.length, paddedBytes s)

/-- Unpack (R173): the logical bits with the last `p` stripped, their values not examined (R180); none where it fails. -/
def unpackBits (bytes : List Byte) (p : Nat) : Option Bits :=
  if p > 7 then none
  else if 8 * bytes.length < p then none
  else some ((bytes.flatMap byteToBits).take (8 * bytes.length - p))

/-! ## Codes in their fields -/

/-- A bit string in a field of `w` bits: position j in field bit w − 1 − j, the bits below 0 (10_state.md R33). -/
def fieldOfBits (w : Nat) (s : Bits) : BitVec w := BitVec.ofNat w (bitsToNat s * 2 ^ (w - s.length))

/-- The first `len` positions of a code field. -/
def bitsOfField {w : Nat} (len : Nat) (v : BitVec w) : Bits := (List.range len).map fun j => v.getMsbD j

/-- The code of a CT entry as a bit string (10_state.md R33). -/
def CtEntry.bits (e : CtEntry) : Bits := bitsOfField e.len.toNat e.code

/-- A valid CT entry holding a code (43_code_table.md R151). -/
def CtEntry.ofBits (s : Bits) : CtEntry :=
  { valid := true, len := BitVec.ofNat 8 s.length, code := fieldOfBits 254 s }

/-- The code of a DT entry as a bit string (10_state.md R36). -/
def DtEntry.bits (e : DtEntry) : Bits := bitsOfField e.len.toNat e.code

/-- A DT entry for a key and its code (45_container.md R196). -/
def DtEntry.ofPair (k : Byte) (s : Bits) : DtEntry :=
  { key := k, len := BitVec.ofNat 8 s.length, code := fieldOfBits 255 s }

/-! ## Byte arrays -/

/-- One byte of SYMBUF or CBUF. -/
def Memory.read (m : Memory) (a : Nat) : Byte :=
  match m with
  | [] => Memory.fill
  | c :: m => if c.1 = a then c.2 else Memory.read m a

/-- Write one byte, keeping the canonical form: indices rise strictly and no listed byte is the fill. -/
def Memory.write (m : Memory) (a : Nat) (b : Byte) : Memory :=
  match m with
  | [] => if b = Memory.fill then [] else [(a, b)]
  | c :: m =>
    if a < c.1 then (if b = Memory.fill then c :: m else (a, b) :: c :: m)
    else if a = c.1 then (if b = Memory.fill then m else (a, b) :: m)
    else c :: Memory.write m a b

/-- `n` consecutive bytes from index `lo`. -/
def Memory.slice (m : Memory) (lo n : Nat) : List Byte := (List.range n).map fun k => m.read (lo + k)

/-! ## Array reads -/

/-- HIST[b] (10_state.md R29). -/
def State.histAt (s : State) (b : Byte) : Word := s.hist[b.toNat]'b.isLt

/-- CT[b] (10_state.md R33). -/
def State.ctAt (s : State) (b : Byte) : CtEntry := s.ct[b.toNat]'b.isLt

/-- A record of the node arena. Indices 509 to 511 hold no record (10_state.md R31); they read as the unused one (log 10). -/
def nodeAt (arena : Vector Node 509) (i : Nat) : Node := arena[i]?.getD Node.unused

/-- SYMBUF[0..TOTAL−1]: the counted symbols in order (10_state.md R30). -/
def State.symbols (s : State) : List Byte := s.symbuf.slice 0 s.total.toNat

/-- CBUF[0..CLEN−1]: the loaded container bytes in order (10_state.md R35). -/
def State.container (s : State) : List Byte := s.cbuf.slice 0 s.clen.toNat

/-- ORDER[0..TABN−1] (10_state.md R34). -/
def State.orderList (s : State) : List Byte := s.order.toList.take s.tabn.toNat

/-- DT[0..TABN−1] as pairs of key and code (10_state.md R36). -/
def State.dtList (s : State) : List (Byte × Bits) :=
  (s.dt.toList.take s.tabn.toNat).map fun e => (e.key, e.bits)

/-- Write a list at consecutive indices of a fixed array from `k` on; indices the array does not have are dropped (log 10). -/
def writeFrom {α : Type} {n : Nat} (v : Vector α n) (k : Nat) (l : List α) : Vector α n :=
  match l with
  | [] => v
  | x :: l => writeFrom (v.setIfInBounds k x) (k + 1) l

end Sys2Proof.Machine
end

