-- ==== Sys2Proof/Machine/Flags.lean ====
section
/-! DEFINITION. The words the register window shows, all computed from the state (spec/10_state.md R42 to R46,
spec/60_exceptions.md R230). -/

namespace Sys2Proof.Machine

open Sys2Proof

/-- The 4-bit value of ERR (60_exceptions.md R230). -/
def ErrCode.code : ErrCode → BitVec 4
  | .none => 0
  | .notFound => 1
  | .emptyInput => 2
  | .corruptedHeader => 3
  | .corruptedPayload => 4
  | .invalidSymbol => 5
  | .capacity => 6
  | .illegalCmd => 7
  | .sequence => 8

/-- The 4-bit value of PHASE (10_state.md R23). -/
def Phase.code : Phase → BitVec 4
  | .idle => 0
  | .eCount => 1
  | .eBuilt => 2
  | .eGen => 3
  | .eHdr => 4
  | .eDone => 5
  | .dLoad => 8
  | .dHdr => 9
  | .dDone => 10
  | .error => 15

/-- STATUS.BUSY (10_state.md R42). -/
def State.busy (s : State) : Bool := s.pending || !s.pendOut.isEmpty

/-- STATUS.ERRF (R42). -/
def State.errf (s : State) : Bool := s.err != .none

/-- STATUS.OK (R42). -/
def State.ok (s : State) : Bool := s.err == .none && (s.phase == .eDone || s.phase == .dDone)

/-- STATUS.OUTV (R42). -/
def State.outv (s : State) : Bool := !s.out.isEmpty

/-- A STATUS word from its fields, bit 0 last (R42); bits 31:12 are 0. -/
def statusOf (err phase : BitVec 4) (outv ok errf busy : Bool) : Word :=
  (0 : BitVec 20) ++ err ++ phase ++ BitVec.ofBool outv ++ BitVec.ofBool ok ++ BitVec.ofBool errf ++ BitVec.ofBool busy

/-- STATUS while BUSY = 0 (R42). -/
def State.statusWord (s : State) : Word :=
  statusOf s.err.code s.phase.code s.outv s.ok s.errf s.busy

/-- STATUS while BUSY = 1: BUSY and OUTV exact, ERR, PHASE, OK and ERRF from the draw `f` (20_memory.md R56). -/
def State.statusDrawn (s : State) (f : Word) : Word :=
  statusOf (f.extractLsb' 8 4) (f.extractLsb' 4 4) s.outv (f.getLsbD 2) (f.getLsbD 1) s.busy

/-- INFO (10_state.md R43). -/
def State.infoWord (s : State) : Word := (0 : BitVec 16) ++ s.pad ++ s.tabn

/-- OUTCNT (10_state.md R45; log 17). -/
def State.outcntWord (s : State) : Word := BitVec.ofNat 32 s.out.length

/-- The OUTDATA word for a head byte: VALID in bit 8 (10_state.md R44). -/
def outdataWord (b : Byte) : Word := (0x000001 : BitVec 24) ++ b

end Sys2Proof.Machine
end

