-- ==== Sys2Proof/Machine/Ops.lean ====
section
/-! DEFINITION. The operations every command shares: emitting bytes, raising an error and clearing it
(spec/60_exceptions.md R238, R239), the legality table and the stages of a command (spec/40_control.md R90 to R94), delivery
(spec/20_memory.md R58). -/

namespace Sys2Proof.Machine

open Sys2Proof

/-- Emit, for a list of bytes in emission order (00_scope.md R11). -/
def emit (bytes : List Byte) (s : State) : State := { s with pendOut := s.pendOut ++ bytes }

/-- `raise E`: error entry (60_exceptions.md R238). Bytes already emitted stay. -/
def raise (e : ErrCode) (s : State) : State := { s with err := e, phase := .error }

/-- Every element of 10_state.md R47 at its reset value; the device's parameters, the host's side and the count of free
draws are none of them (logs 6, 20). A new operation opens here (log 23). -/
def resetElements (s : State) : State :=
  { State.resetWith s.params with
    host := s.host, reads := s.reads, freeCount := s.freeCount, opened := s.reads.length }

/-- CLR's effect, the only way out of ERROR beside reset: every element but PENDING (40_control.md R96, R239). -/
def clearAll (s : State) : State := { resetElements s with pending := s.pending }

/-- The legality table of 40_control.md R92. -/
def legal : Instr → Phase → Bool
  | .nop, _ => true
  | .clr, _ => true
  | .cnt _, p => p == .idle || p == .eCount
  | .rdhist _, p => p == .idle || p == .eCount || p == .eBuilt || p == .eGen || p == .eHdr || p == .eDone
  | .build, p => p == .idle || p == .eCount
  | .gen, p => p == .eBuilt
  | .rdcode _, p => p == .eGen || p == .eHdr || p == .eDone
  | .hdr, p => p == .eGen
  | .pack, p => p == .eHdr
  | .enc, p => p == .idle || p == .eCount
  | .din _, p => p == .idle || p == .dLoad
  | .dhdr, p => p == .idle || p == .dLoad
  | .dpay, p => p == .dHdr
  | .dec, p => p == .idle || p == .dLoad

/-- `cmd in {NOP, CLR}` of 40_control.md R91. -/
def passesErrorGate : Instr → Bool
  | .nop => true
  | .clr => true
  | .cnt _ | .rdhist _ | .build | .gen | .rdcode _ | .hdr | .pack | .enc | .din _ | .dhdr | .dpay | .dec => false

/-- The end of every execute step: PENDING <- 0 (40_control.md R91). -/
def retire (s : State) : State := { s with pending := false }

/-- The stages of a decoded command (40_control.md R91): error gate, phase check, then `perform`, which makes the command's
own checks and effects; then PENDING <- 0. -/
def execute (i : Instr) (perform : State → State) (s : State) : Host.Outcome State Fault Refusal :=
  .next (retire
    (if s.phase = .error ∧ passesErrorGate i = false then s
     else if legal i s.phase = false then raise .sequence s
     else perform s))

/-- The execute step of an illegal word (40_control.md R91, 60_exceptions.md R236). -/
def illegalWord (s : State) : State :=
  retire (if s.phase = .error then s else raise .illegalCmd s)

/-- Run a sub-command of a composite and go on unless it raised: the first error stops the chain (45_container.md R202). -/
def andThen (first second : State → State) (s : State) : State :=
  let t := first s
  if t.phase = .error then t else second t

/-- The delivery step is enabled (20_memory.md R58). -/
def State.canDeliver (s : State) : Bool := !s.pendOut.isEmpty && decide (s.out.length < s.params.outDepth)

/-- The delivery step: the head of PEND_OUT moves to the tail of OUT (20_memory.md R58). -/
def deliver (s : State) : State :=
  match s.pendOut with
  | [] => s
  | b :: rest => { s with pendOut := rest, out := s.out ++ [b] }

/-- DT after a failing command that writes it: unspecified (60_exceptions.md R238), a fresh free value (log 7). -/
def freeDt (s : State) : State :=
  { s with
    dt := (Config.freeDt s.freeCount).map fun e => { key := e.1, len := e.2.1, code := e.2.2 }
    freeCount := s.freeCount + 1 }

end Sys2Proof.Machine
end

