-- ==== Sys2Proof/Machine/CodeTable.lean ====
section
/-! DEFINITION. The code-table generator: GEN and RDCODE (spec/43_code_table.md R150 to R153). -/

namespace Sys2Proof.Machine

open Sys2Proof

/-- The traversal of 43_code_table.md R151: each leaf reached, in visit order, with the path to it. A tree BUILD made is at
most 255 levels deep (R157), so `fuel` does not run out on one; an unused record, which no run reaches, ends its branch
(log 10). -/
def visit (fuel : Nat) (arena : Vector Node 509) (i : ArenaIdx) (path : Bits) : List (Byte × Bits) :=
  match fuel with
  | 0 => []
  | fuel + 1 =>
    if i = Config.nil then []
    else
      let node := nodeAt arena i.toNat
      match node.kind with
      | .empty => []
      | .leaf => [(node.sym, path)]
      | .internal =>
        visit fuel arena node.left (path ++ [false]) ++ visit fuel arena node.right (path ++ [true])

/-- CodeTable(ARENA, ROOT) as the leaves in visit order with their codes (43_code_table.md R152). -/
def codeTable (arena : Vector Node 509) (root : ArenaIdx) : List (Byte × Bits) := visit 512 arena root []

/-- CT after the traversal: every entry invalid, then one valid entry per leaf (43_code_table.md R150, R151). -/
def writeCodes (ct : Vector CtEntry 256) (codes : List (Byte × Bits)) : Vector CtEntry 256 :=
  codes.foldl (fun ct e => ct.set e.1.toNat (CtEntry.ofBits e.2) e.1.isLt) (ct.map fun e => { e with valid := false })

/-- Σ over the valid symbols of HIST[s] × CT[s].len (43_code_table.md R150). -/
def bitLength (hist : Byte → Word) (ct : Byte → CtEntry) : Nat :=
  (allBytes.map fun b => if (ct b).valid then (hist b).toNat * (ct b).len.toNat else 0).sum

/-- GEN's effects (43_code_table.md R150). -/
def performGen (s : State) : State :=
  let codes := codeTable s.arena s.root
  let t := { s with ct := writeCodes s.ct codes, order := writeFrom s.order 0 (codes.map Prod.fst) }
  let n := bitLength t.histAt t.ctAt
  { t with
    bitlen := BitVec.ofNat 40 n
    pad := BitVec.ofNat 8 (padLength n)
    phase := .eGen }

/-- GEN: generate the code table (43_code_table.md R150). -/
def execGen (s : State) : Host.Outcome State Fault Refusal := execute .gen performGen s

/-- The bytes RDCODE emits for an entry: 0x00 when there is no code, else the length and the code padded with zero bits to
whole bytes (43_code_table.md R153). -/
def codeBytes (e : CtEntry) : List Byte := if e.valid then e.len :: paddedBytes e.bits else [0x00]

/-- RDCODE: read one code-table entry (43_code_table.md R153). -/
def execRdcode (b : Byte) (s : State) : Host.Outcome State Fault Refusal :=
  execute (.rdcode b) (fun s => emit (codeBytes (s.ctAt b)) s) s

end Sys2Proof.Machine
end

