-- ==== Sys2Proof/Machine/Container.lean ====
section
/-! DEFINITION. The container codec: HDR, DIN, DHDR, DPAY (spec/45_container.md R190 to R205). -/

namespace Sys2Proof.Machine

open Sys2Proof

/-! ## The encoder's header -/

/-- A code bit as an ASCII digit (45_container.md R192). -/
def asciiBit (b : Bool) : Byte := if b then 0x31 else 0x30

/-- One value entry: the code's digits and the delimiter (45_container.md R190). -/
def valueEntry (code : Bits) : List Byte := code.map asciiBit ++ [Config.delimiter]

/-- The header HDR emits (45_container.md R194). -/
def headerBytes (n : Byte) (order : List Byte) (code : Byte → Bits) : List Byte :=
  n :: (order ++ order.flatMap fun b => valueEntry (code b))

/-- HDR's effects (45_container.md R194). -/
def performHdr (s : State) : State :=
  { emit (headerBytes s.tabn s.orderList fun b => (s.ctAt b).bits) s with phase := .eHdr }

/-- HDR: emit the container header (45_container.md R194). -/
def execHdr (s : State) : Host.Outcome State Fault Refusal := execute .hdr performHdr s

/-! ## Loading a container -/

/-- DIN's own check and effects (45_container.md R203). -/
def performDin (b : Byte) (s : State) : State :=
  if s.clen.toNat = s.params.maxClen then raise .capacity s
  else { s with cbuf := s.cbuf.write s.clen.toNat b, clen := s.clen + 1, phase := .dLoad }

/-- DIN: load one container byte (45_container.md R203). -/
def execDin (b : Byte) (s : State) : Host.Outcome State Fault Refusal := execute (.din b) (performDin b) s

/-! ## Parsing the header -/

/-- One value entry, `v` the digits read so far: the code and the bytes after the delimiter (45_container.md R196). -/
def parseValue (bytes : List Byte) (v : Bits) : Option (Bits × List Byte) :=
  match bytes with
  | [] => none
  | c :: bytes =>
    if c = Config.delimiter then (if v.isEmpty then none else some (v, bytes))
    else if c ≠ 0x30 ∧ c ≠ 0x31 then none
    else if v.length + 1 > 255 then none
    else parseValue bytes (v ++ [c == 0x31])

/-- `n` value entries: the codes and the bytes after the last delimiter (45_container.md R196). -/
def parseValues (n : Nat) (bytes : List Byte) : Option (List Bits × List Byte) :=
  match n with
  | 0 => some ([], bytes)
  | n + 1 =>
    match parseValue bytes [] with
    | none => none
    | some (v, bytes) =>
      match parseValues n bytes with
      | none => none
      | some (vs, bytes) => some (v :: vs, bytes)

/-- No code is a prefix of another; equal codes count as prefixes (45_container.md R195 item 6). -/
abbrev prefixFree (codes : List Bits) : Prop := codes.Pairwise fun a b => ¬ a <+: b ∧ ¬ b <+: a

/-- What ParseHeader gives: the keys with their codes, and the index of the padding-length byte (45_container.md R196). -/
structure Header where
  entries : List (Byte × Bits)
  ppos    : Nat
deriving DecidableEq, Repr

/-- ParseHeader over the container's bytes; none where it fails with CORRUPTED_HEADER (45_container.md R196). -/
def parseHeader (bytes : List Byte) : Option Header :=
  match bytes with
  | [] => none
  | size :: body =>
    let n := size.toNat
    let keys := body.take n
    if n = 0 then none
    else if body.length < n then none
    else if Config.delimiter ∈ keys then none
    else if ¬ keys.Nodup then none
    else
      match parseValues n (body.drop n) with
      | none => none
      | some (codes, rest) =>
        if ¬ prefixFree codes then none
        else if rest.isEmpty then none
        else some { entries := keys.zip codes, ppos := bytes.length - rest.length }

/-- DHDR's own checks and effects (45_container.md R204). On failure DT is unspecified (60_exceptions.md R238; log 7). -/
def performDhdr (s : State) : State :=
  match parseHeader s.container with
  | none => raise .corruptedHeader (freeDt s)
  | some h =>
    { s with
      dt := writeFrom s.dt 0 (h.entries.map fun e => DtEntry.ofPair e.1 e.2)
      tabn := BitVec.ofNat 8 h.entries.length
      ppos := BitVec.ofNat 32 h.ppos
      pad := s.cbuf.read h.ppos
      phase := .dHdr }

/-- DHDR: parse the container header (45_container.md R204). -/
def execDhdr (s : State) : Host.Outcome State Fault Refusal := execute .dhdr performDhdr s

/-! ## Decoding the payload -/

/-- Walk over the logical bits, `cand` the candidate so far: the keys matched, and the bits left matching none
(45_container.md R198, R199). -/
def walk (table : List (Byte × Bits)) (bits cand : Bits) : List Byte × Bits :=
  match bits with
  | [] => ([], cand)
  | b :: bits =>
    let cand := cand ++ [b]
    match table.find? (fun e => e.2 == cand) with
    | some e =>
      let r := walk table bits []
      (e.1 :: r.1, r.2)
    | none => walk table bits cand

/-- The payload: CBUF[PPOS+1 .. CLEN−1] (45_container.md R205). -/
def State.payload (s : State) : List Byte := s.cbuf.slice (s.ppos.toNat + 1) (s.clen.toNat - s.ppos.toNat - 1)

/-- DPAY's own checks and effects (45_container.md R205). The symbols matched before a trailing-bits failure stay emitted
(R206). -/
def performDpay (s : State) : State :=
  let p := (s.cbuf.read s.ppos.toNat).toNat
  if p > 7 then raise .corruptedPayload s
  else if s.payload.length = 0 then raise .corruptedPayload s
  else
    match unpackBits s.payload p with
    | none => raise .corruptedPayload s
    | some bits =>
      let r := walk s.dtList bits []
      if r.2.isEmpty then { emit r.1 s with phase := .dDone }
      else raise .corruptedPayload (emit r.1 s)

/-- DPAY: unpack and decode the payload (45_container.md R205). -/
def execDpay (s : State) : Host.Outcome State Fault Refusal := execute .dpay performDpay s

end Sys2Proof.Machine
end

