-- ==== Sys2Proof/Machine/Packer.lean ====
section
/-! DEFINITION. The bit packer: PACK (spec/44_bit_packer.md R176). -/

namespace Sys2Proof.Machine

open Sys2Proof

/-- PACK's shift-register loop over the symbols, `acc` the register (44_bit_packer.md R176): append the symbol's code, emit
every whole byte, keep the rest; at the end emit what is left, completed with zero bits. -/
def packLoop (code : Byte → Bits) (symbols : List Byte) (acc : Bits) : List Byte :=
  match symbols with
  | [] => if acc.isEmpty then [] else [bitsToByte (acc ++ zeroBits (8 - acc.length))]
  | b :: symbols =>
    let acc := acc ++ code b
    takeBytes (acc.length / 8) acc ++ packLoop code symbols (acc.drop (8 * (acc.length / 8)))

/-- PACK's effects (44_bit_packer.md R176). -/
def performPack (s : State) : State :=
  { emit (s.pad :: packLoop (fun b => (s.ctAt b).bits) s.symbols []) s with phase := .eDone }

/-- PACK: emit the padding byte and the packed payload (44_bit_packer.md R176). -/
def execPack (s : State) : Host.Outcome State Fault Refusal := execute .pack performPack s

end Sys2Proof.Machine
end

