-- ==== Sys2Proof/Machine/Tree.lean ====
section
/-! DEFINITION. The tree builder: the arbiter's order and BUILD (spec/42_tree_builder.md R130 to R137). -/

namespace Sys2Proof.Machine

open Sys2Proof

/-- The node order: weight ascending, then representative symbol ascending (42_tree_builder.md R130). -/
def Node.before (a b : Node) : Bool := a.weight < b.weight || (a.weight == b.weight && a.rep < b.rep)

/-- PQMin over the queue `i :: live`: the arena index with the smallest key (42_tree_builder.md R130). -/
def pqMin (arena : Vector Node 509) (i : Nat) (live : List Nat) : Nat :=
  live.foldl (fun m j => if (nodeAt arena j).before (nodeAt arena m) then j else m) i

/-- A leaf record (42_tree_builder.md R135). -/
def leafNode (b : Byte) (weight : Word) : Node :=
  { kind := .leaf, weight := weight, rep := b, sym := b, left := Config.nil, right := Config.nil }

/-- The record that joins the nodes `a`, extracted first, and `b` (42_tree_builder.md R131, R135, R136). -/
def joinNode (arena : Vector Node 509) (a b : Nat) : Node :=
  { kind := .internal
    weight := (nodeAt arena a).weight + (nodeAt arena b).weight
    rep := if (nodeAt arena a).rep ≤ (nodeAt arena b).rep then (nodeAt arena a).rep else (nodeAt arena b).rep
    sym := 0
    left := BitVec.ofNat 9 a
    right := BitVec.ofNat 9 b }

/-- The synthetic root over the only leaf (42_tree_builder.md R137). -/
def soleRoot (leaf : Node) : Node :=
  { kind := .internal, weight := leaf.weight, rep := leaf.rep, sym := 0, left := 0, right := Config.nil }

/-- The leaves in ascending symbol order (42_tree_builder.md R135). -/
def leavesOf (hist : Byte → Word) : List Node :=
  (allBytes.filter fun b => hist b != 0).map fun b => leafNode b (hist b)

/-- The merge loop of 42_tree_builder.md R135: the arena it leaves and the index of the last node in LIVE. The loop runs at
most once per element of LIVE, which `fuel` counts; an empty LIVE, which no run reaches, gives NIL (log 10). -/
def mergeLoop (fuel : Nat) (arena : Vector Node 509) (live : List Nat) (next : Nat) : Vector Node 509 × Nat :=
  match fuel, live with
  | _, [] => (arena, Config.nil.toNat)
  | _, [i] => (arena, i)
  | 0, i :: _ => (arena, i)
  | fuel + 1, i :: j :: live =>
    let a := pqMin arena i (j :: live)
    match (i :: j :: live).erase a with
    | [] => (arena, a)
    | k :: rest =>
      let b := pqMin arena k rest
      mergeLoop fuel (arena.setIfInBounds next (joinNode arena a b)) ((k :: rest).erase b ++ [next]) (next + 1)

/-- What BuildTree gives: the arena, the root's index and the number of leaves (42_tree_builder.md R134). -/
structure Tree where
  arena : Vector Node 509
  root  : Nat
  size  : Nat
deriving DecidableEq, Repr

/-- BuildTree (42_tree_builder.md R134, R135); records it does not write keep what they held (log 8). -/
def buildTree (hist : Byte → Word) (arena : Vector Node 509) : Tree :=
  let leaves := leavesOf hist
  let arena := writeFrom arena 0 leaves
  if leaves.length = 1 then
    { arena := arena.setIfInBounds 1 (soleRoot (nodeAt arena 0)), root := 1, size := 1 }
  else
    let r := mergeLoop leaves.length arena (List.range leaves.length) leaves.length
    { arena := r.1, root := r.2, size := leaves.length }

/-- BUILD's own check and effects (42_tree_builder.md R135). DESIGN CHOICE (log 22): where it raises EMPTY_INPUT, in BUILD or as
ENC's first part, ARENA and ORDER keep what they held; 60_exceptions.md R238 leaves them unspecified. -/
def performBuild (s : State) : State :=
  if s.total = 0 then raise .emptyInput s
  else
    let t := buildTree s.histAt s.arena
    { s with
      arena := t.arena
      root := BitVec.ofNat 9 t.root
      tabn := BitVec.ofNat 8 t.size
      phase := .eBuilt }

/-- BUILD: build the Huffman tree (42_tree_builder.md R135). -/
def execBuild (s : State) : Host.Outcome State Fault Refusal := execute .build performBuild s

end Sys2Proof.Machine
end

