-- ==== Sys2Proof/Machine/Composite.lean ====
section
/-! DEFINITION. The composite commands ENC and DEC (spec/45_container.md R202, R207). -/

namespace Sys2Proof.Machine

open Sys2Proof

/-- ENC: BUILD, GEN, HDR and PACK in one execute step, without their phase checks (45_container.md R202). -/
def execEnc (s : State) : Host.Outcome State Fault Refusal :=
  execute .enc (andThen performBuild (andThen performGen (andThen performHdr performPack))) s

/-- DEC: DHDR and DPAY in one execute step, without their phase checks (45_container.md R207). -/
def execDec (s : State) : Host.Outcome State Fault Refusal := execute .dec (andThen performDhdr performDpay) s

end Sys2Proof.Machine
end

