-- ==== Sys2Proof/Machine/Control.lean ====
section
/-! DEFINITION. The control commands NOP and CLR (spec/40_control.md R95, R96). -/

namespace Sys2Proof.Machine

open Sys2Proof

/-- NOP: no effect, in every phase (40_control.md R95). -/
def execNop (s : State) : Host.Outcome State Fault Refusal := execute .nop (fun s => s) s

/-- CLR: every element of 10_state.md R47 but PENDING to its reset value, in every phase (40_control.md R96). -/
def execClr (s : State) : Host.Outcome State Fault Refusal := execute .clr clearAll s

end Sys2Proof.Machine
end

