-- ==== Sys2Proof/Machine/Counter.lean ====
section
/-! DEFINITION. The symbol frequency counter: CNT and RDHIST (spec/41_frequency_counter.md R111, R112). -/

namespace Sys2Proof.Machine

open Sys2Proof

/-- CNT's own checks and effects (41_frequency_counter.md R111). -/
def performCnt (b : Byte) (s : State) : State :=
  if b = Config.delimiter then raise .invalidSymbol s
  else if s.total.toNat = s.params.maxLen then raise .capacity s
  else
    { s with
      hist := s.hist.set b.toNat (s.histAt b + 1) b.isLt
      symbuf := s.symbuf.write s.total.toNat b
      total := s.total + 1
      phase := .eCount }

/-- CNT: count one symbol (41_frequency_counter.md R111). -/
def execCnt (b : Byte) (s : State) : Host.Outcome State Fault Refusal := execute (.cnt b) (performCnt b) s

/-- The four bytes of a 32-bit value, most significant first (20_memory.md R65, 41_frequency_counter.md R112). -/
def bigEndian (v : Word) : List Byte :=
  [v.extractLsb' 24 8, v.extractLsb' 16 8, v.extractLsb' 8 8, v.extractLsb' 0 8]

/-- RDHIST: emit one histogram entry (41_frequency_counter.md R112). -/
def execRdhist (b : Byte) (s : State) : Host.Outcome State Fault Refusal :=
  execute (.rdhist b) (fun s => emit (bigEndian (s.histAt b)) s) s

end Sys2Proof.Machine
end

