-- ==== Sys2Proof/Machine/Dispatch.lean ====
section
/-! DEFINITION. The meaning of every command: one arm per constructor of `Instr` (spec/30_encoding.md R73). -/

namespace Sys2Proof.Machine

open Sys2Proof

/-- The execute step of a decoded command (spec/40_control.md R91). -/
def exec (i : Instr) (s : State) : Host.Outcome State Fault Refusal :=
  match i with
  | .nop => Sys2Proof.Machine.execNop s
  | .clr => Sys2Proof.Machine.execClr s
  | .cnt b => Sys2Proof.Machine.execCnt b s
  | .rdhist b => Sys2Proof.Machine.execRdhist b s
  | .build => Sys2Proof.Machine.execBuild s
  | .gen => Sys2Proof.Machine.execGen s
  | .rdcode b => Sys2Proof.Machine.execRdcode b s
  | .hdr => Sys2Proof.Machine.execHdr s
  | .pack => Sys2Proof.Machine.execPack s
  | .enc => Sys2Proof.Machine.execEnc s
  | .din b => Sys2Proof.Machine.execDin b s
  | .dhdr => Sys2Proof.Machine.execDhdr s
  | .dpay => Sys2Proof.Machine.execDpay s
  | .dec => Sys2Proof.Machine.execDec s

end Sys2Proof.Machine
end

