-- ==== Sys2Proof/WellFormed.lean ====
section
/-! DEFINITION. When the fields of a word make a command (spec/30_encoding.md R72 to R76). An `Instr` carries its operand as
a byte, so every `Instr` is well-formed by its type; what can be ill-formed are the fields of a word, and each check has a
name of its own. -/

namespace Sys2Proof

/-- The opcodes of the commands without operand (30_encoding.md R75). -/
def plainOpcodes : List Byte := [0x00, 0x01, 0x20, 0x21, 0x30, 0x31, 0x3F, 0x50, 0x51, 0x5F]

/-- The opcodes of the commands with operand IMM8 (30_encoding.md R75). -/
def operandOpcodes : List Byte := [0x10, 0x11, 0x22, 0x40]

namespace Fields

/-- OPC is one of the fourteen assigned values (30_encoding.md R73). -/
def opcodeAssigned (f : Fields) : Bool := plainOpcodes.contains f.opc || operandOpcodes.contains f.opc

/-- RSV is 0 (30_encoding.md R72). -/
def reservedZero (f : Fields) : Bool := f.rsv == 0

/-- A command without operand has IMM8 = 0 (30_encoding.md R75). -/
def operandAllowed (f : Fields) : Bool := !plainOpcodes.contains f.opc || f.imm8 == 0

/-- The fields are those of a legal word (30_encoding.md R74). -/
def wellFormed (f : Fields) : Bool := f.opcodeAssigned && f.reservedZero && f.operandAllowed

end Fields

end Sys2Proof
end

