-- ==== Sys2Proof/Decode.lean ====
section
/-! DEFINITION. Decoding a command word, total and rejecting by name (spec/30_encoding.md R74), and the encoder written from
the same opcode map (R73, R75). -/

namespace Sys2Proof

/-- The fields of a command word (30_encoding.md R70). -/
def fieldsOf (w : Word) : Fields :=
  { opc := w.extractLsb' 0 8, imm8 := w.extractLsb' 8 8, rsv := w.extractLsb' 16 16 }

/-- The command an assigned opcode names, with operand `imm8` (30_encoding.md R73); none for an unassigned opcode. -/
def commandOf (opc imm8 : Byte) : Option Instr :=
  match opc.toNat with
  | 0x00 => some .nop
  | 0x01 => some .clr
  | 0x10 => some (.cnt imm8)
  | 0x11 => some (.rdhist imm8)
  | 0x20 => some .build
  | 0x21 => some .gen
  | 0x22 => some (.rdcode imm8)
  | 0x30 => some .hdr
  | 0x31 => some .pack
  | 0x3F => some .enc
  | 0x40 => some (.din imm8)
  | 0x50 => some .dhdr
  | 0x51 => some .dpay
  | 0x5F => some .dec
  | _ => none

/-- Decode of one word (30_encoding.md R74): every word is illegal, for a named reason, or exactly one command. -/
def decode (w : Word) : Except Illegal Instr :=
  let f := fieldsOf w
  match commandOf f.opc f.imm8 with
  | none => .error .unassignedOpcode
  | some i =>
    if !f.reservedZero then .error .reservedBits
    else if !f.operandAllowed then .error .operandNotZero
    else .ok i

/-- Put the fields of a legal word together: `(IMM8 << 8) | OPC`, RSV = 0 (30_encoding.md R75). -/
def wordOf (opc imm8 : Byte) : Word := (0 : BitVec 16) ++ imm8 ++ opc

/-- The one word of a command with its operand (30_encoding.md R75, R77). -/
def encode : Instr → Word
  | .nop => wordOf 0x00 0
  | .clr => wordOf 0x01 0
  | .cnt s => wordOf 0x10 s
  | .rdhist s => wordOf 0x11 s
  | .build => wordOf 0x20 0
  | .gen => wordOf 0x21 0
  | .rdcode s => wordOf 0x22 s
  | .hdr => wordOf 0x30 0
  | .pack => wordOf 0x31 0
  | .enc => wordOf 0x3F 0
  | .din b => wordOf 0x40 b
  | .dhdr => wordOf 0x50 0
  | .dpay => wordOf 0x51 0
  | .dec => wordOf 0x5F 0

/-- The host's reading of one table row: bit 0 is the least significant bit of the word; a command is one 32-bit word, so
bits above 31 make no command (30_encoding.md R78). -/
def decodeTableWord (nbits w : Nat) : Option Instr :=
  if nbits ≤ 32 ∧ w < 2 ^ 32 then
    match decode (BitVec.ofNat 32 w) with
    | .ok i => some i
    | .error _ => none
  else none

end Sys2Proof
end

