-- ==== Sys2Proof/Machine/Bus.lean ====
section
/-! DEFINITION. The register window and the host's accesses to it (spec/10_state.md R41 to R46, spec/20_memory.md R52 to R56),
and the reset input (spec/70_reset_and_hazards.md R260). -/

namespace Sys2Proof.Machine

open Sys2Proof

/-- The registers of the window (10_state.md R41). -/
inductive WindowReg where
  | cmd
  | status
  | outdata
  | total
  | info
  | clen
  | outcnt
  | id
deriving DecidableEq, Repr

/-- The register at a byte offset; none outside the window (10_state.md R41). -/
def windowReg (offset : Nat) : Option WindowReg :=
  match offset with
  | 0x00 => some .cmd
  | 0x04 => some .status
  | 0x08 => some .outdata
  | 0x0C => some .total
  | 0x10 => some .info
  | 0x14 => some .clen
  | 0x18 => some .outcnt
  | 0x1C => some .id
  | _ => none

/-- The accesses the spec gives a meaning: 32 bits wide and aligned (20_memory.md R52, R53; log 18). -/
def accessOk (width offset : Nat) : Bool := width == 32 && offset % 4 == 0

/-- A field's word: exact while BUSY = 0, `drawn` from a fresh free draw while BUSY = 1 (20_memory.md R56; log 9). -/
def readField (exact : State → Word) (drawn : State → Word → Word) (s : State) : Word × State :=
  if s.busy then (drawn s (Config.freeRead s.freeCount), { s with freeCount := s.freeCount + 1 })
  else (exact s, s)

/-- OUTDATA: the head of OUT with VALID, and OUT without it; 0 when OUT is empty (10_state.md R44). -/
def readOutdata (s : State) : Word × State :=
  match s.out with
  | [] => (0, s)
  | b :: rest => (outdataWord b, { s with out := rest })

/-- What a read of the window returns, and the state after it (10_state.md R41 to R46, 20_memory.md R54, R56). -/
def readWindow (offset : Nat) (s : State) : Word × State :=
  match windowReg offset with
  | none => (0, s)
  | some .cmd => (0, s)
  | some .status => readField State.statusWord State.statusDrawn s
  | some .outdata => readOutdata s
  | some .total => readField State.total (fun _ f => f) s
  | some .info => readField State.infoWord (fun _ f => f) s
  | some .clen => readField State.clen (fun _ f => f) s
  | some .outcnt => (s.outcntWord, s)
  | some .id => (Config.idWord, s)

/-- A host read: the window's answer joins the host's list of reads (log 13). -/
def hostRead (offset : Nat) (s : State) : State :=
  let r := readWindow offset s
  { r.2 with reads := s.reads ++ [{ offset := offset, value := r.1 }] }

/-- A write the bus holds: to CMD while BUSY = 1 (20_memory.md R55). -/
def writeHeld (offset : Nat) (s : State) : Bool := offset == 0 && s.busy

/-- A host write that is accepted: CMD takes the word and makes it pending; every other offset ignores it (20_memory.md R54,
R55). -/
def hostWrite (offset : Nat) (value : Word) (s : State) : State :=
  if offset = 0 then { s with cmdreg := value, pending := true } else s

/-- The reset input: every element of 10_state.md R47, PENDING and PEND_OUT among them (70_reset_and_hazards.md R260). -/
def hostReset (s : State) : State := resetElements s

end Sys2Proof.Machine
end

