-- ==== Sys2Proof/Machine/Schedule.lean ====
section
/-! DEFINITION. Who moves next and with what: the block's steps (spec/20_memory.md R57, R58) and the host's events, taken one
at a time from `State.host` (log 1), the host loops SYNC and WAIT among them (spec/30_encoding.md R80). -/

namespace Sys2Proof.Machine

open Sys2Proof

/-- What the next step is. -/
inductive Move where
  /-- An execute step of a decoded command, in this state. -/
  | run (i : Instr) (s : State)
  /-- A step whose outcome is known without running a command. -/
  | done (o : Host.Outcome State Fault Refusal)

/-- The block's move: execute the pending command, else deliver one byte, else wait unchanged (20_memory.md R57, R58, R69;
logs 2, 3). -/
def blockMove (s : State) : Move :=
  if s.pending then
    match decode s.cmdreg with
    | .ok i => .run i s
    | .error _ => .done (.next (illegalWord s))
  else if s.canDeliver then .done (.next (deliver s))
  else .done (.next s)

/-- `n` steps of the block before the host goes on. -/
def passes (n : Nat) : List HostEvent := List.replicate n .pass

/-- One pass of SYNC: read STATUS; with OUTV = 1 read OUTDATA next and go round; with BUSY = 0 and OUTV = 0 leave the loop
(30_encoding.md R80). BUSY and OUTV read exact at any time (20_memory.md R56). DESIGN CHOICE (log 14): no step of the block falls
between the STATUS read and the OUTDATA read of one pass, which R58 and R80 would let happen. -/
def syncPass (gaps : List Nat) (rest : List HostEvent) (s : State) : State :=
  let again := passes (gaps.headD 1) ++ .sync gaps.tail :: rest
  { hostRead 0x04 s with
    host := if s.outv then .read 32 0x08 :: again else if s.busy then again else rest }

/-- One pass of WAIT: read STATUS; with BUSY = 0 leave the loop (30_encoding.md R80). -/
def waitPass (gaps : List Nat) (rest : List HostEvent) (s : State) : State :=
  { hostRead 0x04 s with
    host := if s.busy then passes (gaps.headD 1) ++ .wait gaps.tail :: rest else rest }

/-- The next move: the host's next event, or the block when the host passes, has no event left, or has its CMD write held
(00_scope.md R5, 20_memory.md R53, R55; logs 1, 12). -/
def nextMove (s : State) : Move :=
  match s.host with
  | [] => blockMove s
  | .pass :: rest => blockMove { s with host := rest }
  | .read width offset :: rest =>
    if accessOk width offset then .done (.next (hostRead offset { s with host := rest }))
    else .done (.refused .accessOutsideSpec)
  | .write width offset value :: rest =>
    if accessOk width offset then
      if writeHeld offset s then blockMove s
      else .done (.next (hostWrite offset value { s with host := rest }))
    else .done (.refused .accessOutsideSpec)
  | .reset :: rest => .done (.next (hostReset { s with host := rest }))
  | .otherMaster _ :: _ => .done (.refused .secondBusMaster)
  | .sync gaps :: rest => .done (.next (syncPass gaps rest s))
  | .wait gaps :: rest => .done (.next (waitPass gaps rest s))

end Sys2Proof.Machine
end

