-- ==== Sys2Proof/Machine/Step.lean ====
section
/-! DEFINITION. One step of the machine (spec/20_memory.md R57, R58), and how the host's check places a command word. -/

namespace Sys2Proof.Machine

open Sys2Proof

/-- One step: the host's next event, or an execute or delivery step of the block. -/
def step (s : State) : Host.Outcome State Fault Refusal :=
  match nextMove s with
  | .run i t => exec i t
  | .done o => o

/-- The word as if the host had just written it to CMD and the bus accepted it (20_memory.md R55), the block to move next
(log 15). A command is one 32-bit word (30_encoding.md R78). -/
def State.withFetchWord (s : State) (_nbits w : Nat) : State :=
  { s with cmdreg := BitVec.ofNat 32 w, pending := true, host := .pass :: s.host }

end Sys2Proof.Machine
end

