-- ==== Sys2Proof/Machine/HostProgram.lean ====
section
/-! DEFINITION. Host programs: the pseudo-instructions (spec/30_encoding.md R80), the encode and decode procedures
(spec/45_container.md R208, R209) and the end of an operation (spec/70_reset_and_hazards.md R274). A host program is a list
of events for `State.host`. -/

namespace Sys2Proof.Machine

open Sys2Proof

/-- A command written by mnemonic: `W 0x00, word` (30_encoding.md R79). -/
def issue (i : Instr) : HostEvent := .write 32 0x00 (encode i)

/-- CNTS: one CNT per byte, in order (30_encoding.md R80). -/
def cnts (text : List Byte) : List HostEvent := text.map fun b => issue (.cnt b)

/-- DINS: one DIN per byte, in order (30_encoding.md R80). -/
def dins (bytes : List Byte) : List HostEvent := bytes.map fun b => issue (.din b)

/-- The host's encode procedure for `text` (45_container.md R208; log 19). -/
def encodeProcedure (text : List Byte) (gaps : List Nat) : List HostEvent :=
  issue .clr :: (cnts text ++ [issue .enc, .sync gaps])

/-- The host's decode procedure for `bytes` (45_container.md R209; log 19). -/
def decodeProcedure (bytes : List Byte) (gaps : List Nat) : List HostEvent :=
  issue .clr :: (dins bytes ++ [issue .dec, .sync gaps])

/-- The bytes a host collects from its reads: those of OUTDATA with VALID = 1 (10_state.md R44, 30_encoding.md R80). -/
def collected (reads : List BusRead) : List Byte :=
  (reads.filter fun r => r.offset == 0x08 && r.value.getLsbD 8).map fun r => r.value.extractLsb' 0 8

/-- A STATUS word that ends an operation: BUSY = 0, OUTV = 0, PHASE one of E_DONE, D_DONE, ERROR (70_reset_and_hazards.md
R274). -/
def endsOperation (status : Word) : Bool :=
  !status.getLsbD 0 && !status.getLsbD 3
    && (status.extractLsb' 4 4 == Phase.eDone.code || status.extractLsb' 4 4 == Phase.dDone.code
      || status.extractLsb' 4 4 == Phase.error.code)

/-- The outcome of the operation the STATUS word ends: success exactly when OK = 1 (70_reset_and_hazards.md R274). -/
def operationSucceeded (status : Word) : Bool := endsOperation status && status.getLsbD 2

/-- The reads the host has made since the operation's CLR, or since reset where no CLR came after it (70_reset_and_hazards.md
R274; log 23). -/
def State.operationReads (s : State) : List BusRead := s.reads.drop s.opened

/-- The first STATUS read that ends an operation: the reads before it and the word it returned (70_reset_and_hazards.md R274). -/
def operationEnd (reads : List BusRead) : Option (List BusRead × Word) :=
  match reads with
  | [] => none
  | r :: reads =>
    if r.offset == 0x04 && endsOperation r.value then some ([], r.value)
    else
      match operationEnd reads with
      | none => none
      | some e => some (r :: e.1, e.2)

/-- What an operation gave: whether it succeeded, and the bytes the host read (70_reset_and_hazards.md R274, 45_container.md R208,
R209). -/
structure OperationResult where
  succeeded : Bool
  output    : List Byte
deriving DecidableEq, Repr

/-- The result of the operation since the last CLR or reset, once it has ended (70_reset_and_hazards.md R274). Bytes read after
its end are none of its output (log 23). -/
def State.operationResult (s : State) : Option OperationResult :=
  match operationEnd s.operationReads with
  | none => none
  | some e => some { succeeded := operationSucceeded e.2, output := collected e.1 }

end Sys2Proof.Machine
end

