-- ==== Sys2Proof/Safety.lean ====
section
/-! DEFINITION. What claims are stated in: reachable states, the invariants of spec/10_state.md R48 and the stronger invariant
every step keeps, and runs of commands without the bus around them. -/

namespace Sys2Proof.Machine

open Sys2Proof

/-- The phases of an encode (10_state.md R48). -/
def Phase.encoding (p : Phase) : Bool :=
  p == .idle || p == .eCount || p == .eBuilt || p == .eGen || p == .eHdr || p == .eDone

/-- The phases of a decode (10_state.md R48). -/
def Phase.decoding (p : Phase) : Bool := p == .dLoad || p == .dHdr || p == .dDone

/-- The phases of an encode whose tree is built (10_state.md R48). -/
def Phase.treeBuilt (p : Phase) : Bool := p == .eBuilt || p == .eGen || p == .eHdr || p == .eDone

/-- The symbols with a nonzero count: the Frequency Map's domain (10_state.md R29). -/
def State.counted (s : State) : List Byte := allBytes.filter fun b => s.histAt b != 0

/-- The invariants the spec states of every state reachable from reset, item by item (10_state.md R48). -/
structure SpecInv (s : State) : Prop where
  err_iff_error : s.err ≠ .none ↔ s.phase = .error
  pending_alone : s.pending = true → s.pendOut = []
  total_eq_sum : s.total.toNat = (allBytes.map fun b => (s.histAt b).toNat).sum
  hist_counts : ∀ b : Byte, (s.histAt b).toNat = s.symbols.count b
  no_delimiter : s.histAt Config.delimiter = 0
  encoding_clen : s.phase.encoding = true → s.clen = 0
  decoding_total : s.phase.decoding = true → s.total = 0
  built_tabn : s.phase.treeBuilt = true → 1 ≤ s.tabn.toNat ∧ s.tabn.toNat = s.counted.length

/-- What every step keeps: the spec's invariants, the bounds of the arrays and FIFOs they rest on, the canonical form of the
byte arrays, and that code 1 is never recorded. -/
structure Inv (s : State) : Prop extends SpecInv s where
  params_wf : s.params.wf
  idle_total : s.phase = .idle → s.total = 0
  total_le : s.total.toNat ≤ s.params.maxLen
  clen_le : s.clen.toNat ≤ s.params.maxClen
  out_le : s.out.length ≤ s.params.outDepth
  symbuf_wf : Memory.wf s.symbuf
  cbuf_wf : Memory.wf s.cbuf
  not_notFound : s.err ≠ .notFound
  header_loaded : s.phase = .dHdr ∨ s.phase = .dDone → 1 ≤ s.tabn.toNat ∧ s.ppos.toNat < s.clen.toNat

/-- The states a device with parameters `p` reaches from reset, whatever its host does (10_state.md R48). -/
inductive Reachable (p : Params) : State → Prop where
  | start (h : List HostEvent) : Reachable p { State.resetWith p with host := h }
  | step {s t : State} : Reachable p s → Machine.step s = .next t → Reachable p t

/-- Run commands one after another, without the bus between them; none if one gives no next state. -/
def runCommands : List Instr → State → Option State
  | [], s => some s
  | i :: is, s =>
    match exec i s with
    | .next t => runCommands is t
    | .fault _ => none
    | .refused _ => none

/-- The host access that the spec gives no meaning: not 32 bits wide or not aligned (20_memory.md R53), or another bus
master's (60_exceptions.md R249). -/
def HostEvent.outsideSpec : HostEvent → Bool
  | .read width offset => !accessOk width offset
  | .write width offset _ => !accessOk width offset
  | .otherMaster _ => true
  | .pass | .reset | .sync _ | .wait _ => false

end Sys2Proof.Machine
end

