-- ==== Sys2Proof/Certificates/Slice0/Obligations.lean ====
section
/-! DEFINITION. The statements for the provers, from the numbered rules of spec/. Where a statement gives the next state as a
record update of the old one, every field the update does not name is unchanged: that is the command's frame. -/

namespace Sys2Proof.Claims

open Sys2Proof Sys2Proof.Machine

/-- The legality table of 40_control.md R92, row by row. -/
def legalPhases : Instr → List Phase
  | .nop | .clr => [.idle, .eCount, .eBuilt, .eGen, .eHdr, .eDone, .dLoad, .dHdr, .dDone, .error]
  | .cnt _ | .build | .enc => [.idle, .eCount]
  | .rdhist _ => [.idle, .eCount, .eBuilt, .eGen, .eHdr, .eDone]
  | .gen => [.eBuilt]
  | .rdcode _ => [.eGen, .eHdr, .eDone]
  | .hdr => [.eGen]
  | .pack => [.eHdr]
  | .din _ | .dhdr | .dec => [.idle, .dLoad]
  | .dpay => [.dHdr]

/-- The state after a command that raised `e` with no other effect (60_exceptions.md R238, 40_control.md R91). -/
def raised (e : ErrCode) (s : State) : State := { s with err := e, phase := .error, pending := false }

/-- The block's move from `s` has the outcome `f`, in each situation in which the block moves: the host has no event left, it
passes, or its CMD write is held because BUSY = 1 (20_memory.md R55; logs 1, 12). -/
def BlockTakes (s : State) (f : State → Host.Outcome State Fault Refusal) : Prop :=
  (s.host = [] → step s = f s) ∧
  (∀ rest, s.host = .pass :: rest → step s = f { s with host := rest }) ∧
  (∀ v rest, s.host = .write 32 0x00 v :: rest → s.pending = true ∨ s.pendOut ≠ [] → step s = f s)

/-- Outside its phases (and outside ERROR) the command raises SEQUENCE and does nothing else (40_control.md R93). -/
def SequenceOutside (i : Instr) : Prop :=
  ∀ s : State, s.phase ≠ .error → s.phase ∉ legalPhases i → exec i s = .next (raised .sequence s)

/-- The value entry of a code: its digits as 0x30 and 0x31, then 0x7C (45_container.md R190, R192). -/
def entryBytes (code : Bits) : List Byte := code.map (fun b => if b then 0x31 else 0x30) ++ [0x7C]

/-- `bytes` is a container header with these keys and codes, followed by `rest`: items 1 to 7 of 45_container.md R195 over the
layout of R190. -/
structure IsHeader (bytes keys : List Byte) (codes : List Bits) (rest : List Byte) : Prop where
  layout : bytes = BitVec.ofNat 8 keys.length :: (keys ++ codes.flatMap entryBytes ++ rest)
  size : 1 ≤ keys.length ∧ keys.length ≤ 255
  paired : codes.length = keys.length
  no_delimiter : (0x7C : Byte) ∉ keys
  distinct : keys.Nodup
  lengths : ∀ c ∈ codes, 1 ≤ c.length ∧ c.length ≤ 255
  prefix_free : codes.Pairwise fun a b => ¬ a <+: b ∧ ¬ b <+: a
  padding_byte : rest ≠ []

/-- The logical bits of DPAY's payload CBUF[PPOS+1 .. CLEN−1] with the last `p` stripped (45_container.md R197). -/
def logicalBits (s : State) (p : Nat) : Bits :=
  let n := s.clen.toNat - s.ppos.toNat - 1
  (((List.range n).map fun k => s.cbuf.read (s.ppos.toNat + 1 + k)).flatMap byteToBits).take (8 * n - p)

/-- The node a path from `i` leads to: left on 0, right on 1 (43_code_table.md R151). -/
def follow (arena : Vector Node 509) (i : ArenaIdx) : Bits → ArenaIdx
  | [] => i
  | b :: path =>
    follow arena (if b then (nodeAt arena i.toNat).right else (nodeAt arena i.toNat).left) path

/-- The stream PACK packs: the codes of the counted symbols in order (44_bit_packer.md R177). -/
def stream (s : State) : Bits := s.symbols.flatMap fun b => (s.ctAt b).bits

/-- The length Σ over the valid symbols of HIST[s] × CT[s].len (43_code_table.md R150). -/
def weightedLength (s : State) : Nat :=
  (allBytes.map fun b => if (s.ctAt b).valid then (s.histAt b).toNat * (s.ctAt b).len.toNat else 0).sum

/-- A host event that takes no byte out of OUT and is no reset: a pass, a pass of WAIT, a read other than OUTDATA's, a write. -/
def LeavesOut : HostEvent → Prop
  | .pass | .wait _ => True
  | .read width offset => width = 32 ∧ offset % 4 = 0 ∧ offset ≠ 0x08
  | .write width offset _ => width = 32 ∧ offset % 4 = 0
  | .reset | .otherMaster _ | .sync _ => False

/-- A read that ends an operation: of STATUS, with BUSY = 0, OUTV = 0 and PHASE one of E_DONE, D_DONE, ERROR
(70_reset_and_hazards.md R274). -/
def FinalRead (r : BusRead) : Prop :=
  r.offset = 0x04 ∧ r.value.getLsbD 0 = false ∧ r.value.getLsbD 3 = false ∧
    (r.value.extractLsb' 4 4 = 5 ∨ r.value.extractLsb' 4 4 = 10 ∨ r.value.extractLsb' 4 4 = 15)

/-- A word the spec writes out and what it decodes to (95_test_vectors.md 2.1). -/
def specWords : List (Word × Option Instr) :=
  [(0x00000000, some .nop), (0x00000001, some .clr), (0x00006110, some (.cnt 0x61)), (0x00007C10, some (.cnt 0x7C)),
    (0x0000FF11, some (.rdhist 0xFF)), (0x00000020, some .build), (0x00000021, some .gen),
    (0x00006422, some (.rdcode 0x64)), (0x00000030, some .hdr), (0x00000031, some .pack), (0x0000003F, some .enc)] ++
  [(0x00007C40, some (.din 0x7C)), (0x00000050, some .dhdr), (0x00000051, some .dpay), (0x0000005F, some .dec),
    (0x00010000, none), (0x00000002, none), (0x00000100, none), (0x00000120, none), (0xFFFFFFFF, none), (0x00006112, none)]

/-- The elements of 10_state.md R47 with the values it gives them. -/
structure AtReset (s : State) : Prop where
  cmdreg : s.cmdreg = 0
  err : s.err = .none
  phase : s.phase = .idle
  total : s.total = 0
  tabn : s.tabn = 0
  pad : s.pad = 0
  bitlen : s.bitlen = 0
  clen : s.clen = 0
  ppos : s.ppos = 0
  root : s.root = 0x1FF
  hist : ∀ b : Byte, s.histAt b = 0
  ct : ∀ b : Byte, (s.ctAt b).valid = false
  pendOut : s.pendOut = []
  out : s.out = []

end Sys2Proof.Claims

open Sys2Proof Sys2Proof.Machine Sys2Proof.Claims

/-! ## Encoding -/

/-- 30_encoding.md R75: each command without operand has one legal word, its OPC; each command with an operand has the words
`(IMM8 << 8) | OPC`. -/
def Obligations.LegalWordsOfEachCommand : Prop :=
  ∀ w : Word,
    (decode w = .ok .nop ↔ w = 0x00) ∧ (decode w = .ok .clr ↔ w = 0x01) ∧ (decode w = .ok .build ↔ w = 0x20) ∧
    (decode w = .ok .gen ↔ w = 0x21) ∧ (decode w = .ok .hdr ↔ w = 0x30) ∧ (decode w = .ok .pack ↔ w = 0x31) ∧
    (decode w = .ok .enc ↔ w = 0x3F) ∧ (decode w = .ok .dhdr ↔ w = 0x50) ∧ (decode w = .ok .dpay ↔ w = 0x51) ∧
    (decode w = .ok .dec ↔ w = 0x5F) ∧
    ∀ b : Byte,
      (decode w = .ok (.cnt b) ↔ w = (b.setWidth 32 <<< 8) ||| 0x10) ∧
      (decode w = .ok (.rdhist b) ↔ w = (b.setWidth 32 <<< 8) ||| 0x11) ∧
      (decode w = .ok (.rdcode b) ↔ w = (b.setWidth 32 <<< 8) ||| 0x22) ∧
      (decode w = .ok (.din b) ↔ w = (b.setWidth 32 <<< 8) ||| 0x40)

/-- 30_encoding.md R72, R76: a word is illegal exactly when its OPC is unassigned, RSV is not 0, or a command without operand
has IMM8 ≠ 0. -/
def Obligations.IllegalWordsAreTheIllegalSpace : Prop :=
  ∀ w : Word,
    (∃ e, decode w = .error e) ↔
      (w.extractLsb' 0 8 ∉
          ([0x00, 0x01, 0x10, 0x11, 0x20, 0x21, 0x22, 0x30, 0x31, 0x3F, 0x40, 0x50, 0x51, 0x5F] : List Byte) ∨
        w.extractLsb' 16 16 ≠ 0 ∨
        (w.extractLsb' 0 8 ∈ ([0x00, 0x01, 0x20, 0x21, 0x30, 0x31, 0x3F, 0x50, 0x51, 0x5F] : List Byte) ∧
          w.extractLsb' 8 8 ≠ 0))

/-- Decode and encode agree for every command and every word (30_encoding.md R74, R75). -/
def Obligations.DecodeAndEncodeAgree : Prop :=
  ∀ (w : Word) (i : Instr), decode w = .ok i ↔ w = encode i

/-- The words of 95_test_vectors.md 2.1 decode to what it says. -/
def Obligations.SpecWordsDecode : Prop :=
  ∀ p ∈ specWords, (decode p.1).toOption = p.2

/-! ## The execute step -/

/-- 20_memory.md R57: when the block moves with PENDING = 1 and CMDREG a legal word, the step is the command's execute step; the
block moves when the host passes, when it has no event left, and when a CMD write is held (R55). -/
def Obligations.PendingCommandExecutes : Prop :=
  ∀ (s : State) (i : Instr), s.pending = true → decode s.cmdreg = .ok i → BlockTakes s (exec i)

/-- 60_exceptions.md R236: an illegal word raises ILLEGAL_CMD when PHASE ≠ ERROR and does nothing when PHASE = ERROR. In which
situations the block moves (`BlockTakes`) is the model's choice (logs 1, 12). -/
def Obligations.IllegalWordRaisesIllegalCmd : Prop :=
  ∀ (s : State) (e : Illegal), s.pending = true → decode s.cmdreg = .error e →
    (s.phase ≠ .error → BlockTakes s fun t => .next (raised .illegalCmd t)) ∧
    (s.phase = .error → BlockTakes s fun t => .next { t with pending := false })

/-- 60_exceptions.md R237, 40_control.md R93: SEQUENCE is raised by exactly the commands that R92 does not allow in the phase
(other than ERROR), and then nothing else happens. -/
def Obligations.SequenceExactlyOutsideLegalPhases : Prop :=
  ∀ i : Instr, SequenceOutside i ∧
    ∀ s t : State, s.phase ∈ legalPhases i → exec i s = .next t → t.err = .sequence → s.err = .sequence

/-- 40_control.md R94: in ERROR every command but NOP and CLR, and every illegal word, does nothing (beside ending the execute
step with PENDING = 0). -/
def Obligations.ErrorGateIgnoresCommands : Prop :=
  ∀ s : State, s.phase = .error →
    (∀ i : Instr, i ≠ .nop → i ≠ .clr → exec i s = .next { s with pending := false }) ∧
    (∀ e, s.pending = true → decode s.cmdreg = .error e → BlockTakes s fun t => .next { t with pending := false })

/-- 40_control.md R95: NOP, the word 0 and no other word with OPC 0x00, is legal in every phase and has no effect. -/
def Obligations.NopHasNoEffect : Prop :=
  decode 0x00000000 = .ok .nop ∧ (∀ w : Word, w.extractLsb' 0 8 = 0 → w ≠ 0 → ∃ e, decode w = .error e) ∧
  ∀ s : State, exec .nop s = .next { s with pending := false }

/-- 40_control.md R96: CLR, in every phase, sets every element but PENDING to the value 10_state.md R47 gives. That
the parameters, the host's side and the count of free draws are untouched is the model's choice (log 20). -/
def Obligations.ClrRestoresResetState : Prop :=
  decode 0x00000001 = .ok .clr ∧
  ∀ s : State, ∃ t, exec .clr s = .next t ∧ AtReset t ∧ t.pending = false ∧ t.statusWord = 0 ∧
    t.params = s.params ∧ t.host = s.host ∧ t.reads = s.reads ∧ t.freeCount = s.freeCount

/-- 60_exceptions.md R241: once an error is recorded no step but CLR's and reset changes ERR or leaves ERROR. -/
def Obligations.FirstErrorIsKept : Prop :=
  ∀ s t : State, s.phase = .error → step s = .next t →
    (t.phase = .error ∧ t.err = s.err) ∨
    (AtReset t ∧ ((s.pending = true ∧ decode s.cmdreg = .ok .clr) ∨ ∃ rest, s.host = .reset :: rest))

/-- 60_exceptions.md R238: a command that raises an error keeps every register and array the rule lists, and the bytes it
emitted before stay. DEC is the composite whose first part may have completed: it keeps all but what DHDR wrote. -/
def Obligations.FailingCommandKeepsState : Prop :=
  ∀ (i : Instr) (s t : State), s.phase ≠ .error → exec i s = .next t → t.phase = .error →
    t.pending = false ∧ t.err ≠ .none ∧ t.err ≠ .notFound ∧ (∃ bytes, t.pendOut = s.pendOut ++ bytes) ∧
    t.total = s.total ∧ t.clen = s.clen ∧ t.bitlen = s.bitlen ∧ t.hist = s.hist ∧ t.symbuf = s.symbuf ∧
    t.cbuf = s.cbuf ∧ t.ct = s.ct ∧ t.out = s.out ∧
    (i ≠ .dec → t.tabn = s.tabn ∧ t.pad = s.pad ∧ t.ppos = s.ppos) ∧
    (i = .dec → t.err = .corruptedHeader → t.tabn = s.tabn ∧ t.pad = s.pad ∧ t.ppos = s.ppos ∧ t.pendOut = s.pendOut)

/-! ## The frequency counter -/

/-- 41_frequency_counter.md R111: CNT counts and buffers one symbol, raises INVALID_SYMBOL for 0x7C first, then CAPACITY when
SYMBUF is full, and SEQUENCE outside IDLE and E_COUNT. (The byte reads back where SYMBUF has its canonical form, which
`Inv` says of every reachable state.) -/
def Obligations.CntCountsOneSymbol : Prop :=
  ∀ b : Byte, decode ((b.setWidth 32 <<< 8) ||| 0x10) = .ok (.cnt b) ∧ SequenceOutside (.cnt b) ∧
  ∀ s : State, s.phase = .idle ∨ s.phase = .eCount →
    (b = 0x7C → exec (.cnt b) s = .next (raised .invalidSymbol s)) ∧
    (b ≠ 0x7C → s.total.toNat = s.params.maxLen → exec (.cnt b) s = .next (raised .capacity s)) ∧
    (b ≠ 0x7C → s.total.toNat ≠ s.params.maxLen → ∃ t, exec (.cnt b) s = .next t ∧
      t = { s with hist := t.hist, symbuf := t.symbuf, total := s.total + 1, phase := .eCount, pending := false } ∧
      t.histAt b = s.histAt b + 1 ∧ (∀ c : Byte, c ≠ b → t.histAt c = s.histAt c) ∧
      (Memory.wf s.symbuf → t.symbuf.read s.total.toNat = b) ∧ ∀ a : Nat, a ≠ s.total.toNat → t.symbuf.read a = s.symbuf.read a)

/-- 41_frequency_counter.md R112: RDHIST emits the four bytes of HIST[s], most significant first, and changes nothing else; for
0x7C, which is never counted (10_state.md R48), they are 00 00 00 00. -/
def Obligations.RdhistEmitsBigEndianCount : Prop :=
  ∀ b : Byte, decode ((b.setWidth 32 <<< 8) ||| 0x11) = .ok (.rdhist b) ∧ SequenceOutside (.rdhist b) ∧
  ∀ s : State, s.phase.encoding = true → ∃ b3 b2 b1 b0 : Byte,
    exec (.rdhist b) s = .next { s with pendOut := s.pendOut ++ [b3, b2, b1, b0], pending := false } ∧
    (s.histAt b).toNat = b3.toNat * 2 ^ 24 + b2.toNat * 2 ^ 16 + b1.toNat * 2 ^ 8 + b0.toNat ∧
    (SpecInv s → b = 0x7C → [b3, b2, b1, b0] = [0x00, 0x00, 0x00, 0x00])

/-- 41_frequency_counter.md R110: after the CNT commands for S since CLR or reset, HIST[s] = Freq(S)(s) for every s and TOTAL = |S|
(and SYMBUF holds S in order, 10_state.md R30). -/
def Obligations.CountingComputesFrequencies : Prop :=
  ∀ (start : State) (text : List Byte), (∃ p, start = State.resetWith p) ∨ (∃ s, exec .clr s = .next start) →
    start.params.wf → text.length ≤ start.params.maxLen → (0x7C : Byte) ∉ text →
    ∃ t, runCommands (text.map .cnt) start = some t ∧
      (∀ b : Byte, (t.histAt b).toNat = text.count b) ∧ t.total.toNat = text.length ∧ t.symbols = text

/-! ## The tree builder -/

/-- 42_tree_builder.md R135 as far as it names registers: BUILD raises EMPTY_INPUT when nothing is counted, else completes,
writes ARENA, ROOT, TABN and PHASE, and nothing else. That a BUILD which raises EMPTY_INPUT keeps ARENA is the model's choice
(log 22): 60_exceptions.md R238 leaves it unspecified. -/
def Obligations.BuildCompletes : Prop :=
  decode 0x00000020 = .ok .build ∧ SequenceOutside .build ∧
  ∀ s : State, s.phase = .idle ∨ s.phase = .eCount →
    (s.total = 0 → exec .build s = .next (raised .emptyInput s)) ∧
    (s.total ≠ 0 → ∃ t, exec .build s = .next t ∧
      t = { s with arena := t.arena, root := t.root, tabn := BitVec.ofNat 8 s.counted.length, phase := .eBuilt
                   pending := false })

/-- 42_tree_builder.md R130, R131, R135 to R138: the leaves stand first in symbol order; every later record up to the root joins
the two smallest keys of the queue at its time, the smaller on the left, with the sum of their weights and the smaller rep;
the root is internal and weighs TOTAL. -/
def Obligations.BuildMergesTheSmallestKeys : Prop :=
  ∀ s t : State, SpecInv s → exec .build s = .next t → t.phase = .eBuilt →
    let n := s.counted.length
    let node := nodeAt t.arena
    let isChild := fun j i => (node i).left.toNat = j ∨ (node i).right.toNat = j
    (∀ (k : Nat) (b : Byte), s.counted[k]? = some b →
      node k = { kind := .leaf, weight := s.histAt b, rep := b, sym := b, left := 0x1FF, right := 0x1FF }) ∧
    (n = 1 → t.root = 1 ∧
      node 1 = { kind := .internal, weight := s.total, rep := (node 0).rep, sym := 0, left := 0, right := 0x1FF }) ∧
    (2 ≤ n → t.root.toNat = 2 * n - 2 ∧ (node t.root.toNat).weight = s.total ∧
      ∀ i, n ≤ i → i ≤ 2 * n - 2 →
        let l := (node i).left.toNat
        let r := (node i).right.toNat
        (node i).kind = .internal ∧ (node i).sym = 0 ∧ l < i ∧ r < i ∧ l ≠ r ∧
        (node i).weight.toNat = (node l).weight.toNat + (node r).weight.toNat ∧
        (node i).rep.toNat = min (node l).rep.toNat (node r).rep.toNat ∧
        (∀ m, n ≤ m → m < i → ¬ isChild l m ∧ ¬ isChild r m) ∧
        (node l).before (node r) = true ∧
        ∀ j, j < i → j ≠ l → j ≠ r → (∀ m, n ≤ m → m < i → ¬ isChild j m) → (node r).before (node j) = true)

/-- 42_tree_builder.md R134, R140: what BUILD makes depends on HIST alone. -/
def Obligations.BuildDependsOnHistAlone : Prop :=
  ∀ s₁ s₂ t₁ t₂ : State, s₁.hist = s₂.hist → SpecInv s₁ → exec .build s₁ = .next t₁ → exec .build s₂ = .next t₂ →
    t₁.phase = .eBuilt → t₂.phase = .eBuilt →
    t₁.tabn = t₂.tabn ∧ t₁.root = t₂.root ∧ ∀ i, i ≤ t₁.root.toNat → nodeAt t₁.arena i = nodeAt t₂.arena i

/-! ## The code-table generator -/

/-- 43_code_table.md R150 as far as it names registers: GEN completes, writes CT, ORDER, BITLEN, PAD and PHASE, and nothing
else; BITLEN is Σ HIST[s] × CT[s].len and PAD its padding length. -/
def Obligations.GenCompletes : Prop :=
  decode 0x00000021 = .ok .gen ∧ SequenceOutside .gen ∧
  ∀ s : State, s.phase = .eBuilt → ∃ t, exec .gen s = .next t ∧
    t = { s with ct := t.ct, order := t.order, bitlen := BitVec.ofNat 40 (weightedLength t)
                 pad := BitVec.ofNat 8 ((8 - weightedLength t % 8) % 8), phase := .eGen, pending := false }

/-- 43_code_table.md R151: each valid symbol's code is the path from the root to a leaf of that symbol, left on 0, right on 1. -/
def Obligations.CodesFollowTheTree : Prop :=
  ∀ s t : State, SpecInv s → runCommands [.build, .gen] s = some t → t.phase = .eGen →
    ∀ b : Byte, (t.ctAt b).valid = true →
      (nodeAt t.arena (follow t.arena t.root (t.ctAt b).bits).toNat).kind = .leaf ∧
      (nodeAt t.arena (follow t.arena t.root (t.ctAt b).bits).toNat).sym = b

/-- 43_code_table.md R155: after GEN exactly the counted symbols have a code, TABN of them, every code is non-empty, and ORDER is
a permutation of them. -/
def Obligations.EveryCountedSymbolHasACode : Prop :=
  ∀ s t : State, SpecInv s → runCommands [.build, .gen] s = some t → t.phase = .eGen →
    (∀ b : Byte, (t.ctAt b).valid = true ↔ s.histAt b ≠ 0) ∧
    (allBytes.filter fun b => (t.ctAt b).valid).length = t.tabn.toNat ∧
    (∀ b : Byte, (t.ctAt b).valid = true → 1 ≤ (t.ctAt b).bits.length) ∧
    t.orderList.Perm (allBytes.filter fun b => (t.ctAt b).valid)

/-- 43_code_table.md R154: no code is a prefix of another. -/
def Obligations.CodesArePrefixFree : Prop :=
  ∀ s t : State, SpecInv s → runCommands [.build, .gen] s = some t → t.phase = .eGen →
    ∀ a b : Byte, (t.ctAt a).valid = true → (t.ctAt b).valid = true → a ≠ b →
      ¬ (t.ctAt a).bits <+: (t.ctAt b).bits

/-- 43_code_table.md R157: with N ≥ 2 symbols every code has at most N − 1 ≤ 254 bits, with one symbol exactly one, and BITLEN is
at most 254 × TOTAL. -/
def Obligations.CodeLengthsAreBounded : Prop :=
  ∀ s t : State, SpecInv s → runCommands [.build, .gen] s = some t → t.phase = .eGen →
    (∀ b : Byte, (t.ctAt b).valid = true →
      (t.ctAt b).len.toNat ≤ 254 ∧ (2 ≤ t.tabn.toNat → (t.ctAt b).len.toNat ≤ t.tabn.toNat - 1) ∧
      (t.tabn.toNat = 1 → (t.ctAt b).len.toNat = 1)) ∧
    t.bitlen.toNat ≤ 254 * s.total.toNat

/-- 43_code_table.md R156: the Kraft sum is 1 for N ≥ 2 and 1/2 for N = 1 (here times 2^254). -/
def Obligations.KraftSumIsOne : Prop :=
  ∀ s t : State, SpecInv s → runCommands [.build, .gen] s = some t → t.phase = .eGen →
    (allBytes.map fun b => if (t.ctAt b).valid then 2 ^ (254 - (t.ctAt b).len.toNat) else 0).sum =
      if t.tabn.toNat = 1 then 2 ^ 253 else 2 ^ 254

/-- 43_code_table.md R158: ORDER lists the symbols in increasing lexicographic order of their codes, 0 before 1. -/
def Obligations.OrderIsLexicographic : Prop :=
  ∀ s t : State, SpecInv s → runCommands [.build, .gen] s = some t → t.phase = .eGen →
    (t.orderList.map fun b => (t.ctAt b).bits).Pairwise (List.Lex fun x y : Bool => x = false ∧ y = true)

/-- 43_code_table.md R153: RDCODE emits 0x00 for a symbol without a code, else its length and its code, most significant bit
first, padded with zero bits to whole bytes; nothing else changes. -/
def Obligations.RdcodeEmitsLengthAndCode : Prop :=
  ∀ b : Byte, decode ((b.setWidth 32 <<< 8) ||| 0x22) = .ok (.rdcode b) ∧ SequenceOutside (.rdcode b) ∧
  ∀ s : State, s.phase = .eGen ∨ s.phase = .eHdr ∨ s.phase = .eDone → ∃ bytes : List Byte,
    exec (.rdcode b) s = .next { s with pendOut := s.pendOut ++ bytes, pending := false } ∧
    ((s.ctAt b).valid = false → bytes = [0x00]) ∧
    ((s.ctAt b).valid = true → ∃ packed : List Byte, bytes = (s.ctAt b).len :: packed ∧
      packed.flatMap byteToBits =
        (s.ctAt b).bits ++ List.replicate ((8 - (s.ctAt b).len.toNat % 8) % 8) false)

/-- 10_state.md R33: a code of at most 254 bits stands in its field with position j in bit 253 − j and zeros below, and reads
back as it was. -/
def Obligations.CodeFieldHoldsTheCode : Prop :=
  ∀ code : Bits, code.length ≤ 254 →
    (CtEntry.ofBits code).valid = true ∧ (CtEntry.ofBits code).len.toNat = code.length ∧
    (∀ j, (h : j < code.length) → (CtEntry.ofBits code).code.getLsbD (253 - j) = code[j]) ∧
    (∀ k, k < 254 - code.length → (CtEntry.ofBits code).code.getLsbD k = false) ∧
    (CtEntry.ofBits code).bits = code

/-! ## The bit packer -/

/-- 44_bit_packer.md R170: BitsToByte is Σ s[j] × 2^(7−j), ByteToBits lists bits 7 to 0, and the two are inverse. -/
def Obligations.BitsAndBytesAreInverse : Prop :=
  (∀ x : Byte, byteToBits x = [x.getLsbD 7, x.getLsbD 6, x.getLsbD 5, x.getLsbD 4, x.getLsbD 3, x.getLsbD 2, x.getLsbD 1,
    x.getLsbD 0] ∧ bitsToByte (byteToBits x) = x) ∧
  ∀ b0 b1 b2 b3 b4 b5 b6 b7 : Bool,
    (bitsToByte [b0, b1, b2, b3, b4, b5, b6, b7]).toNat =
      b0.toNat * 128 + b1.toNat * 64 + b2.toNat * 32 + b3.toNat * 16 + b4.toNat * 8 + b5.toNat * 4 + b6.toNat * 2 + b7.toNat ∧
    byteToBits (bitsToByte [b0, b1, b2, b3, b4, b5, b6, b7]) = [b0, b1, b2, b3, b4, b5, b6, b7]

/-- 44_bit_packer.md R174: unpacking what was packed gives the bits back; packing what was unpacked gives the same padding
length, as many bytes, and the bytes' bits with the last P set to 0. -/
def Obligations.PackAndUnpackRoundTrip : Prop :=
  (∀ s : Bits, unpackBits (packBits s).2 (packBits s).1 = some s) ∧
  ∀ (bytes : List Byte) (p : Nat), 1 ≤ bytes.length → p ≤ 7 → ∃ s, unpackBits bytes p = some s ∧
    (packBits s).1 = p ∧
    (packBits s).2.flatMap byteToBits =
      (bytes.flatMap byteToBits).take (8 * bytes.length - p) ++ List.replicate p false

/-- 44_bit_packer.md R176, R177: PACK emits PAD and then the bytes whose bits are the stream completed with zero bits to whole
bytes; nothing else changes but PHASE. -/
def Obligations.PackEmitsThePaddedStream : Prop :=
  decode 0x00000031 = .ok .pack ∧ SequenceOutside .pack ∧
  ∀ s : State, s.phase = .eHdr → ∃ bytes : List Byte,
    exec .pack s = .next { s with pendOut := s.pendOut ++ s.pad :: bytes, phase := .eDone, pending := false } ∧
    bytes.flatMap byteToBits = stream s ++ List.replicate ((8 - (stream s).length % 8) % 8) false

/-! ## The container codec and the composites -/

/-- 45_container.md R194: HDR emits TABN, the keys in ORDER, and for each key its code's digits and 0x7C; nothing else changes but
PHASE. -/
def Obligations.HdrEmitsTheHeader : Prop :=
  decode 0x00000030 = .ok .hdr ∧ SequenceOutside .hdr ∧
  ∀ s : State, s.phase = .eGen →
    exec .hdr s = .next { s with
      pendOut := s.pendOut ++ s.tabn :: (s.order.toList.take s.tabn.toNat ++
        (s.order.toList.take s.tabn.toNat).flatMap fun b => entryBytes (s.ctAt b).bits)
      phase := .eHdr, pending := false }

/-- 45_container.md R202: ENC is BUILD, GEN, HDR and PACK run in order; EMPTY_INPUT stops it before anything is emitted. That
ARENA and ORDER keep what they held then is the model's choice (log 22): 60_exceptions.md R238 leaves them unspecified. -/
def Obligations.EncIsTheFourCommands : Prop :=
  decode 0x0000003F = .ok .enc ∧ SequenceOutside .enc ∧
  ∀ s : State, s.phase = .idle ∨ s.phase = .eCount →
    (s.total = 0 → exec .enc s = .next (raised .emptyInput s)) ∧
    (s.total ≠ 0 → ∃ t, runCommands [.build, .gen, .hdr, .pack] s = some t ∧ exec .enc s = .next t ∧ t.phase = .eDone ∧
      t.err = s.err)

/-- 45_container.md R193: the length of the container ENC emits. -/
def Obligations.ContainerLength : Prop :=
  ∀ s t : State, SpecInv s → exec .enc s = .next t → t.phase = .eDone →
    t.pendOut.length = s.pendOut.length + 1 + t.tabn.toNat +
      (allBytes.map fun b => if (t.ctAt b).valid then (t.ctAt b).len.toNat + 1 else 0).sum + 1 + (t.bitlen.toNat + 7) / 8

/-- 45_container.md R203: DIN appends one byte to CBUF, raises CAPACITY when it is full and SEQUENCE outside IDLE and D_LOAD.
(The byte reads back where CBUF has its canonical form, which `Inv` says of every reachable state.) -/
def Obligations.DinLoadsOneByte : Prop :=
  ∀ b : Byte, decode ((b.setWidth 32 <<< 8) ||| 0x40) = .ok (.din b) ∧ SequenceOutside (.din b) ∧
  ∀ s : State, s.phase = .idle ∨ s.phase = .dLoad →
    (s.clen.toNat = s.params.maxClen → exec (.din b) s = .next (raised .capacity s)) ∧
    (s.clen.toNat ≠ s.params.maxClen → ∃ t, exec (.din b) s = .next t ∧
      t = { s with cbuf := t.cbuf, clen := s.clen + 1, phase := .dLoad, pending := false } ∧
      (Memory.wf s.cbuf → t.cbuf.read s.clen.toNat = b) ∧ ∀ a : Nat, a ≠ s.clen.toNat → t.cbuf.read a = s.cbuf.read a)

/-- 45_container.md R195 items 1 to 7, R204: DHDR accepts exactly the headers of R195, and then TABN, PPOS, PAD and the pairs of DT
are those of the header; otherwise it raises CORRUPTED_HEADER, and only DT is left unspecified (60_exceptions.md R238). -/
def Obligations.DhdrAcceptsExactlyTheHeaders : Prop :=
  decode 0x00000050 = .ok .dhdr ∧ SequenceOutside .dhdr ∧
  ∀ s : State, s.phase = .idle ∨ s.phase = .dLoad →
    (∀ keys codes rest, IsHeader s.container keys codes rest → ∃ t, exec .dhdr s = .next t ∧
      t = { s with dt := t.dt, tabn := BitVec.ofNat 8 keys.length
                   ppos := BitVec.ofNat 32 (s.container.length - rest.length), pad := rest.headD 0
                   phase := .dHdr, pending := false } ∧
      t.dtList = keys.zip codes) ∧
    ((¬ ∃ keys codes rest, IsHeader s.container keys codes rest) → ∃ t, exec .dhdr s = .next t ∧
      t = { raised .corruptedHeader s with dt := t.dt, freeCount := s.freeCount + 1 })

/-- 45_container.md R195 items 8 to 10, R197 to R199, R205, R206: DPAY raises CORRUPTED_PAYLOAD when P > 7 or the payload is empty;
else it emits the keys whose codes make up the logical bits, and fails when bits are left that no code begins. Where the codes
are prefix-free, as DHDR makes sure, and the logical bits are the codes of some entries in a row, it completes and emits the
keys of just those entries (R200). -/
def Obligations.DpayDecodesThePayload : Prop :=
  decode 0x00000051 = .ok .dpay ∧ SequenceOutside .dpay ∧
  ∀ s : State, s.phase = .dHdr →
    let p := (s.cbuf.read s.ppos.toNat).toNat
    (7 < p ∨ s.clen.toNat ≤ s.ppos.toNat + 1 → exec .dpay s = .next (raised .corruptedPayload s)) ∧
    (p ≤ 7 → s.ppos.toNat + 1 < s.clen.toNat →
      ∃ (matched : List (Byte × Bits)) (left : Bits),
        (∀ e ∈ matched, e ∈ s.dtList ∧ e.2 ≠ []) ∧ (∀ e ∈ s.dtList, e.2 ≠ [] → ¬ e.2 <+: left) ∧
        logicalBits s p = matched.flatMap Prod.snd ++ left ∧
        exec .dpay s = .next { s with
          pendOut := s.pendOut ++ matched.map Prod.fst
          phase := if left = [] then .dDone else .error
          err := if left = [] then s.err else .corruptedPayload
          pending := false }) ∧
    (∀ entries : List (Byte × Bits), p ≤ 7 → s.ppos.toNat + 1 < s.clen.toNat →
      (s.dtList.map Prod.snd).Pairwise (fun a b => ¬ a <+: b ∧ ¬ b <+: a) → (∀ e ∈ entries, e ∈ s.dtList ∧ e.2 ≠ []) →
      logicalBits s p = entries.flatMap Prod.snd →
      exec .dpay s = .next { s with
        pendOut := s.pendOut ++ entries.map Prod.fst, phase := .dDone, pending := false })

/-- 45_container.md R207: DEC is DHDR and DPAY run in order, the first error stopping the chain. The states are equal
whole, so DT too; what DT holds after a failing DEC is the model's choice (log 7: kept when the DPAY part failed, the same
free draw when the DHDR part did): 60_exceptions.md R238 leaves it unspecified. -/
def Obligations.DecIsTheTwoCommands : Prop :=
  decode 0x0000005F = .ok .dec ∧ SequenceOutside .dec ∧
  ∀ s : State, s.phase = .idle ∨ s.phase = .dLoad →
    ∃ t, runCommands [.dhdr, .dpay] s = some t ∧ exec .dec s = .next t

/-- 45_container.md R211: a text without 0x7C that fits the buffers, encoded and then decoded, comes back; both operations
succeed. -/
def Obligations.EncodeThenDecodeReturnsTheText : Prop :=
  ∀ (p : Params) (text : List Byte), p.wf → 1 ≤ text.length → text.length ≤ p.maxLen → (0x7C : Byte) ∉ text →
    ∃ e, runCommands (text.map .cnt ++ [.enc]) (State.resetWith p) = some e ∧ e.phase = .eDone ∧ e.err = .none ∧
      (e.pendOut.length ≤ p.maxClen →
        ∃ d, runCommands (e.pendOut.map .din ++ [.dec]) (State.resetWith p) = some d ∧ d.phase = .dDone ∧
          d.err = .none ∧ d.pendOut = text)

/-! ## The register window and the bus -/

/-- 10_state.md R23 and 60_exceptions.md R230: the numbers of the phases and of the errors. -/
def Obligations.PhaseAndErrorCodes : Prop :=
  ([Phase.idle, .eCount, .eBuilt, .eGen, .eHdr, .eDone, .dLoad, .dHdr, .dDone, .error].map fun p => p.code.toNat) =
    [0, 1, 2, 3, 4, 5, 8, 9, 10, 15] ∧
  ([ErrCode.none, .notFound, .emptyInput, .corruptedHeader, .corruptedPayload, .invalidSymbol, .capacity, .illegalCmd,
    .sequence].map fun e => e.code.toNat) = [0, 1, 2, 3, 4, 5, 6, 7, 8]

/-- 10_state.md R42: what a read of STATUS shows while BUSY = 0, field by field; the read changes nothing (20_memory.md R54). -/
def Obligations.StatusReadWhileIdle : Prop :=
  ∀ (s : State) (rest : List HostEvent), s.host = .read 32 0x04 :: rest → s.pending = false → s.pendOut = [] →
    ∃ v : Word, step s = .next { s with host := rest, reads := s.reads ++ [{ offset := 0x04, value := v }] } ∧
      v.getLsbD 0 = false ∧ (v.getLsbD 1 = true ↔ s.err ≠ .none) ∧
      (v.getLsbD 2 = true ↔ s.err = .none ∧ (s.phase = .eDone ∨ s.phase = .dDone)) ∧
      (v.getLsbD 3 = true ↔ s.out ≠ []) ∧ v.extractLsb' 4 4 = s.phase.code ∧ v.extractLsb' 8 4 = s.err.code ∧
      v.extractLsb' 12 20 = 0

/-- 20_memory.md R56: while BUSY = 1 a STATUS read shows BUSY = 1 and OUTV exact (and zero reserved bits), whatever the free
fields show. -/
def Obligations.StatusReadWhileBusy : Prop :=
  ∀ (s : State) (rest : List HostEvent), s.host = .read 32 0x04 :: rest → s.pending = true ∨ s.pendOut ≠ [] →
    ∃ v : Word, step s = .next { s with host := rest, reads := s.reads ++ [{ offset := 0x04, value := v }]
                                        freeCount := s.freeCount + 1 } ∧
      v.getLsbD 0 = true ∧ (v.getLsbD 3 = true ↔ s.out ≠ []) ∧ v.extractLsb' 12 20 = 0

/-- 10_state.md R44: OUTDATA returns 0x100 | b and removes the head b of OUT; empty, it returns 0 and changes nothing. -/
def Obligations.OutdataReadPops : Prop :=
  ∀ (s : State) (rest : List HostEvent), s.host = .read 32 0x08 :: rest →
    (∀ b out, s.out = b :: out → step s = .next { s with
      host := rest, out := out, reads := s.reads ++ [{ offset := 0x08, value := 0x00000100 ||| b.setWidth 32 }] }) ∧
    (s.out = [] → step s = .next { s with host := rest, reads := s.reads ++ [{ offset := 0x08, value := 0 }] })

/-- 10_state.md R43, R45: TOTAL, INFO and CLEN read exactly while BUSY = 0, OUTCNT at any time, and none of the reads changes the
block. -/
def Obligations.RegisterReadsAreExact : Prop :=
  ∀ (s : State) (rest : List HostEvent),
    let after := fun (offset : Nat) (v : Word) => Host.Outcome.next (φ := Fault) (ρ := Refusal)
      { s with host := rest, reads := s.reads ++ [{ offset := offset, value := v }] }
    (s.host = .read 32 0x18 :: rest → ∃ v, step s = after 0x18 v ∧ (s.out.length < 2 ^ 32 → v.toNat = s.out.length)) ∧
    (s.pending = false → s.pendOut = [] →
      (s.host = .read 32 0x0C :: rest → step s = after 0x0C s.total) ∧
      (s.host = .read 32 0x14 :: rest → step s = after 0x14 s.clen) ∧
      (s.host = .read 32 0x10 :: rest → ∃ v, step s = after 0x10 v ∧ v.extractLsb' 0 8 = s.tabn ∧
        v.extractLsb' 8 8 = s.pad ∧ v.extractLsb' 16 16 = 0))

/-- 10_state.md R41, R46: ID reads 0x48434331, CMD and every offset outside the window read 0, at any time and without effect. -/
def Obligations.ConstantReads : Prop :=
  ∀ (s : State) (rest : List HostEvent) (offset : Nat), s.host = .read 32 offset :: rest → offset % 4 = 0 →
    (offset = 0x1C → step s = .next { s with host := rest, reads := s.reads ++ [{ offset := 0x1C, value := 0x48434331 }] }) ∧
    (offset = 0x00 ∨ 0x20 ≤ offset →
      step s = .next { s with host := rest, reads := s.reads ++ [{ offset := offset, value := 0 }] })

/-- 20_memory.md R55: a CMD write is accepted while BUSY = 0 and sets CMDREG and PENDING; while BUSY = 1 it is held. How it
is held is the model's choice (log 12): the step that follows is the one the block would take, and the write is still the
host's next event after it. -/
def Obligations.CmdWriteIssuesOrIsHeld : Prop :=
  ∀ (s : State) (w : Word) (rest : List HostEvent), s.host = .write 32 0x00 w :: rest →
    (s.pending = false → s.pendOut = [] → step s = .next { s with host := rest, cmdreg := w, pending := true }) ∧
    (s.pending = true ∨ s.pendOut ≠ [] → ∃ t, step s = .next t ∧ t.host = s.host ∧
      step { s with host := .pass :: s.host } = .next t)

/-- 10_state.md R41, 20_memory.md R54: a write to any other offset has no effect. -/
def Obligations.OtherWritesHaveNoEffect : Prop :=
  ∀ (s : State) (w : Word) (offset : Nat) (rest : List HostEvent), s.host = .write 32 offset w :: rest →
    offset % 4 = 0 → offset ≠ 0 → step s = .next { s with host := rest }

/-- 20_memory.md R53: the machine refuses the host's accesses that are not 32 bits wide or not aligned. That it never faults (log
21, from 60_exceptions.md R252) and refuses a second bus master's write (log 11, from 60_exceptions.md R249 and
93_implementation_defined.md U6), and nothing else, is deduced. -/
def Obligations.OnlyAccessesOutsideTheSpecStop : Prop :=
  ∀ s : State, (∀ f, step s ≠ .fault f) ∧
    ((∃ r, step s = .refused r) ↔ ∃ e rest, s.host = e :: rest ∧
      ((∃ width offset, e = .read width offset ∧ (width ≠ 32 ∨ offset % 4 ≠ 0)) ∨
        (∃ width offset v, e = .write width offset v ∧ (width ≠ 32 ∨ offset % 4 ≠ 0)) ∨
        ∃ v, e = .otherMaster v))

/-- 20_memory.md R58: with a byte pending and room in OUT the block's step moves the head of PEND_OUT to the tail of OUT; while OUT
is full the delivery waits. In which situations the block moves (`BlockTakes`) is the model's choice (logs 1, 12). -/
def Obligations.DeliveryMovesOneByte : Prop :=
  ∀ (s : State) (b : Byte) (bytes : List Byte), s.pending = false → s.pendOut = b :: bytes →
    (s.out.length < s.params.outDepth →
      BlockTakes s fun t => .next { t with pendOut := bytes, out := s.out ++ [b] }) ∧
    (s.params.outDepth ≤ s.out.length → BlockTakes s fun t => .next t)

/-- 20_memory.md R59: unless reset or CLR discards it, the output stream (the bytes the host has collected, then OUT, then PEND_OUT)
only grows at its end, and only in an execute step. -/
def Obligations.OutputStreamKeepsItsOrder : Prop :=
  ∀ s t : State, step s = .next t → (∀ rest, s.host ≠ .reset :: rest) →
    ¬ (s.pending = true ∧ decode s.cmdreg = .ok .clr) →
    ∃ emitted, collected t.reads ++ t.out ++ t.pendOut = collected s.reads ++ s.out ++ s.pendOut ++ emitted ∧
      (s.pending = false → emitted = [])

/-- 70_reset_and_hazards.md R265, 20_memory.md R69: when more bytes are pending than OUT has room for and the host never reads
OUTDATA (it waits with WAIT, or does nothing), BUSY stays 1 forever. -/
def Obligations.UndrainedOutputHangs : Prop :=
  ∀ (s : State) (k : Nat), (∀ e ∈ s.host, LeavesOut e) → s.pending = false → s.out.length ≤ s.params.outDepth →
    s.params.outDepth < s.out.length + s.pendOut.length →
    ∃ t, Host.Core.run core k s = .next t ∧ t.busy = true

/-- 20_memory.md R58, R61: when OUT has room for all pending bytes, as many block steps deliver them all and BUSY is 0. -/
def Obligations.DeliveryDrainsPendingOutput : Prop :=
  ∀ s : State, s.host = [] → s.pending = false → s.out.length + s.pendOut.length ≤ s.params.outDepth →
    ∃ t, Host.Core.run core s.pendOut.length s = .next t ∧
      t = { s with pendOut := [], out := s.out ++ s.pendOut } ∧ t.busy = false

/-- 30_encoding.md R80: one pass of SYNC reads STATUS; with OUTV = 1 it reads OUTDATA next and goes round; it leaves the loop when
BUSY = 0 and OUTV = 0, and else goes round. How many steps the block takes before the next pass is the loop's `gaps`, and
that it takes none between the two reads of one pass, are the model's choice (log 14). -/
def Obligations.SyncLoopPass : Prop :=
  ∀ (s : State) (gaps : List Nat) (rest : List HostEvent), s.host = .sync gaps :: rest →
    ∃ t v, step s = .next t ∧ t = { s with host := t.host, reads := s.reads ++ [{ offset := 0x04, value := v }]
                                           freeCount := t.freeCount } ∧
      v.getLsbD 0 = s.busy ∧ v.getLsbD 3 = s.outv ∧
      (s.outv = true →
        t.host = .read 32 0x08 :: (List.replicate (gaps.headD 1) .pass ++ .sync gaps.tail :: rest)) ∧
      (s.outv = false → s.busy = false → t.host = rest) ∧
      (s.outv = false → s.busy = true → t.host = List.replicate (gaps.headD 1) .pass ++ .sync gaps.tail :: rest)

/-! ## Reset and invariants -/

/-- 10_state.md R47: what reset leaves, for every device. -/
def Obligations.ResetStateValues : Prop :=
  ∀ p : Params, AtReset (State.resetWith p) ∧ (State.resetWith p).pending = false ∧
    ([0x04, 0x10, 0x0C, 0x14, 0x18, 0x1C].map fun offset => (readWindow offset (State.resetWith p)).1) =
      [0, 0, 0, 0, 0, 0x48434331]

/-- 70_reset_and_hazards.md R260: the reset input, at any step, sets every element to the value of 10_state.md R47 and discards
the pending command and all output. That the parameters and the host's further events stay is the model's choice (log 20). -/
def Obligations.ResetInputClearsEverything : Prop :=
  ∀ (s : State) (rest : List HostEvent), s.host = .reset :: rest →
    ∃ t, step s = .next t ∧ AtReset t ∧ t.pending = false ∧ t.busy = false ∧ t.statusWord = 0 ∧ t.host = rest ∧ t.params = s.params

/-- 70_reset_and_hazards.md R261: reset and CLR leave the same state of the block. The states are equal whole. For the contents
that R47 leaves unspecified (SYMBUF, CBUF, ARENA, ORDER, DT, CT len and code), which 40_control.md R96 lets CLR keep or lose,
that is the model's choice (log 6), and so it is for the model's own fields (log 20). -/
def Obligations.ResetAndClrAgree : Prop :=
  ∀ (s t u : State) (rest : List HostEvent), exec .clr s = .next t →
    step { s with host := .reset :: rest } = .next u → { u with host := t.host } = t

/-- The invariant holds right after reset, for every device with legal parameters. -/
def Obligations.InvariantHoldsAtReset : Prop :=
  ∀ p : Params, p.wf → Inv (State.resetWith p)

/-- The invariant (10_state.md R48 with the bounds it rests on, the canonical form of the byte arrays, ERR ≠ 1 of
60_exceptions.md R231) is kept by every step from every state that has it. -/
def Obligations.EveryStepKeepsTheInvariant : Prop :=
  ∀ s t : State, Inv s → step s = .next t → Inv t

/-- 10_state.md R48: the spec's invariants hold in every state reachable from reset, whatever the host does. -/
def Obligations.SpecInvariantsHoldWhenReachable : Prop :=
  ∀ (p : Params) (s : State), p.wf → Reachable p s → SpecInv s

/-- A reachable state is one of the same device, and never records NOT_FOUND (60_exceptions.md R231). -/
def Obligations.ReachableStatesNeverRecordNotFound : Prop :=
  ∀ (p : Params) (s : State), p.wf → Reachable p s → s.err ≠ .notFound ∧ s.params = p ∧ s.total.toNat ≤ p.maxLen ∧
    s.clen.toNat ≤ p.maxClen ∧ s.out.length ≤ p.outDepth

/-! ## The end of an operation -/

/-- 70_reset_and_hazards.md R274: an operation ends at the first final STATUS read since its CLR, succeeds exactly when that read
shows OK = 1, and its output is the bytes read from OUTDATA since its CLR. CLR opens an operation, and a step that neither runs
CLR nor is reset only adds to its reads. That reset opens one as well, that it opens when CLR executes, and that bytes read
after the end are none of its output, are the model's choice (log 23). -/
def Obligations.OperationEndsAtItsFirstFinalRead : Prop :=
  (∀ (s : State) (r : OperationResult), s.operationResult = some r ↔
    ∃ before last later, s.operationReads = before ++ last :: later ∧ FinalRead last ∧ (∀ e ∈ before, ¬ FinalRead e) ∧
      r.succeeded = last.value.getLsbD 2 ∧ r.output = collected before) ∧
  (∀ s t : State, exec .clr s = .next t → t.operationReads = []) ∧
  ∀ s t : State, s.opened ≤ s.reads.length → step s = .next t → t.opened ≤ t.reads.length ∧
    ((∃ made, t.operationReads = s.operationReads ++ made) ∨
      (t.operationReads = [] ∧ AtReset t ∧
        ((s.pending = true ∧ decode s.cmdreg = .ok .clr) ∨ ∃ rest, s.host = .reset :: rest)))
end

