-- ==== Sys2Proof/Laws/Bits.lean ====
section
/-! SUPPORT. Bit strings, bytes and code fields. -/

namespace Sys2Proof.Machine

open Sys2Proof

theorem bitsToNat_append_singleton (s : Bits) (b : Bool) : bitsToNat (s ++ [b]) = 2 * bitsToNat s + b.toNat := by
  simp [bitsToNat]

theorem bitsToNat_lt (s : Bits) : bitsToNat s < 2 ^ s.length := by
  induction s using List.reverseRecOn with
  | nil => simp [bitsToNat]
  | append_singleton s b ih =>
    rw [bitsToNat_append_singleton, List.length_append, List.length_singleton, pow_succ]
    have := b.toNat_lt
    omega

/-- Bit k of a bit string's number, counted from its last bit. -/
theorem bitsToNat_testBit (s : Bits) (k : Nat) (h : k < s.length) :
    (bitsToNat s).testBit k = s[s.length - 1 - k]'(by omega) := by
  induction s using List.reverseRecOn generalizing k with
  | nil => simp at h
  | append_singleton s b ih =>
    rw [bitsToNat_append_singleton]
    cases k with
    | zero => cases b <;> simp [Nat.testBit_zero]
    | succ k =>
      have hk : k < s.length := by simpa using h
      have hb : (2 * bitsToNat s + b.toNat) / 2 = bitsToNat s := by
        have := b.toNat_lt
        omega
      rw [Nat.testBit_succ, hb, ih k hk, List.getElem_append_left (by simp; omega)]
      congr 1
      simp
      omega

@[simp] theorem byteToBits_length (x : Byte) : (byteToBits x).length = 8 := by simp [byteToBits]

theorem bitsToByte_byteToBits (x : Byte) : bitsToByte (byteToBits x) = x := by
  revert x
  decide +kernel

theorem byteToBits_bitsToByte (s : Bits) (h : s.length = 8) : byteToBits (bitsToByte s) = s := by
  match s, h with
  | [a, b, c, d, e, f, g, i], _ => revert a b c d e f g i; decide +kernel

theorem padLength_le (n : Nat) : padLength n ≤ 7 := by unfold padLength; omega

theorem add_padLength_mod (n : Nat) : (n + padLength n) % 8 = 0 := by unfold padLength; omega

@[simp] theorem takeBytes_length (k : Nat) (s : Bits) : (takeBytes k s).length = k := by
  induction k generalizing s with
  | zero => rfl
  | succ k ih => simp [takeBytes, ih]

/-- The bits of the first k bytes are the first 8k bits. -/
theorem takeBytes_bits (k : Nat) (s : Bits) (h : 8 * k ≤ s.length) : (takeBytes k s).flatMap byteToBits = s.take (8 * k) := by
  induction k generalizing s with
  | zero => simp [takeBytes]
  | succ k ih =>
    rw [takeBytes, List.flatMap_cons, byteToBits_bitsToByte _ (by simp; omega), ih _ (by simp; omega), mul_add, mul_one,
      add_comm, List.take_add]

/-- The bits of a bit string's padded bytes are the string and the padding. -/
theorem paddedBytes_bits (s : Bits) : (paddedBytes s).flatMap byteToBits = s ++ zeroBits (padLength s.length) := by
  have h := add_padLength_mod s.length
  simp only [paddedBytes, zeroBits, List.length_append, List.length_replicate]
  rw [takeBytes_bits _ _ (by simp; omega), List.take_of_length_le (by simp; omega)]

theorem paddedBytes_length (s : Bits) : 8 * (paddedBytes s).length = s.length + padLength s.length := by
  have h := add_padLength_mod s.length
  simp only [paddedBytes, zeroBits, takeBytes_length, List.length_append, List.length_replicate]
  omega

theorem flatMap_byteToBits_length (bytes : List Byte) : (bytes.flatMap byteToBits).length = 8 * bytes.length := by
  induction bytes with
  | nil => rfl
  | cons b bytes ih => simp [List.flatMap_cons, ih]; omega

/-- A list of bytes is determined by its bits. -/
theorem flatMap_byteToBits_injective {a b : List Byte} (h : a.flatMap byteToBits = b.flatMap byteToBits) : a = b := by
  induction a generalizing b with
  | nil =>
    have := congrArg List.length h
    rw [flatMap_byteToBits_length, flatMap_byteToBits_length] at this
    cases b <;> simp_all
  | cons x a ih =>
    cases b with
    | nil =>
      have := congrArg List.length h
      rw [flatMap_byteToBits_length, flatMap_byteToBits_length] at this
      simp at this
    | cons y b =>
      rw [List.flatMap_cons, List.flatMap_cons] at h
      obtain ⟨h1, h2⟩ := List.append_inj h (by simp)
      rw [ih h2, ← bitsToByte_byteToBits x, h1, bitsToByte_byteToBits]

@[simp] theorem bitsOfField_length {w : Nat} (len : Nat) (v : BitVec w) : (bitsOfField len v).length = len := by
  simp [bitsOfField]

/-- Position j of a code stands in field bit w − 1 − j. -/
theorem fieldOfBits_getMsbD {w : Nat} (s : Bits) (h : s.length ≤ w) (j : Nat) (hj : j < s.length) :
    (fieldOfBits w s).getMsbD j = s[j] := by
  have hlt : bitsToNat s * 2 ^ (w - s.length) < 2 ^ w := by
    calc bitsToNat s * 2 ^ (w - s.length) < 2 ^ s.length * 2 ^ (w - s.length) :=
          Nat.mul_lt_mul_of_pos_right (bitsToNat_lt s) (by positivity)
      _ = 2 ^ w := by rw [← pow_add]; congr 1; omega
  rw [BitVec.getMsbD, fieldOfBits, BitVec.getLsbD_ofNat, Nat.testBit_mul_two_pow]
  have h1 : j < w := by omega
  have h2 : w - s.length ≤ w - 1 - j := by omega
  have h3 : w - 1 - j - (w - s.length) = s.length - 1 - j := by omega
  simp only [h1, decide_true, Bool.true_and, h2, h3]
  rw [bitsToNat_testBit s _ (by omega)]
  have h4 : w - 1 - j < w := by omega
  simp only [h4, decide_true, Bool.true_and]
  congr 1
  omega

/-- A code reads back from its field. -/
theorem bitsOfField_fieldOfBits {w : Nat} (s : Bits) (h : s.length ≤ w) : bitsOfField s.length (fieldOfBits w s) = s := by
  refine List.ext_getElem (by simp) fun j h1 h2 => ?_
  simp only [bitsOfField, List.getElem_map, List.getElem_range]
  exact fieldOfBits_getMsbD s h j h2

theorem CtEntry.bits_ofBits (s : Bits) (h : s.length ≤ 254) : (CtEntry.ofBits s).bits = s := by
  have hl : (BitVec.ofNat 8 s.length).toNat = s.length := by
    rw [BitVec.toNat_ofNat]; exact Nat.mod_eq_of_lt (by omega)
  simp only [CtEntry.bits, CtEntry.ofBits, hl]
  exact bitsOfField_fieldOfBits s h

theorem DtEntry.bits_ofPair (k : Byte) (s : Bits) (h : s.length ≤ 255) : (DtEntry.ofPair k s).bits = s := by
  have hl : (BitVec.ofNat 8 s.length).toNat = s.length := by
    rw [BitVec.toNat_ofNat]; exact Nat.mod_eq_of_lt (by omega)
  simp only [DtEntry.bits, DtEntry.ofPair, hl]
  exact bitsOfField_fieldOfBits s h

end Sys2Proof.Machine
end

