-- ==== Sys2Proof/Laws/Bus.lean ====
section
/-! SUPPORT. The fields of the window's words. -/

namespace Sys2Proof.Machine

open Sys2Proof

theorem busy_iff (s : State) : s.busy = true ↔ s.pending = true ∨ s.pendOut ≠ [] := by simp [State.busy]

/-- Each field of a STATUS word reads back. -/
theorem statusOf_fields (err phase : BitVec 4) (outv ok errf busy : Bool) :
    let v := statusOf err phase outv ok errf busy
    v.getLsbD 0 = busy ∧ v.getLsbD 1 = errf ∧ v.getLsbD 2 = ok ∧ v.getLsbD 3 = outv ∧ v.extractLsb' 4 4 = phase ∧
      v.extractLsb' 8 4 = err ∧ v.extractLsb' 12 20 = 0 := by
  revert err phase outv ok errf busy
  decide +kernel

theorem outdataWord_eq (b : Byte) : outdataWord b = 0x00000100 ||| b.setWidth 32 := by
  revert b
  decide +kernel

theorem collected_append (a b : List BusRead) : collected (a ++ b) = collected a ++ collected b := by simp [collected]

/-- A read of OUTDATA with a byte collects the byte. -/
theorem collected_outdata (b : Byte) : collected [{ offset := 0x08, value := outdataWord b }] = [b] := by
  revert b
  decide +kernel

/-- A read of any other register collects nothing. -/
theorem collected_other {offset : Nat} (v : Word) (h : offset ≠ 0x08) : collected [{ offset := offset, value := v }] = [] := by
  simp [collected, h]

end Sys2Proof.Machine
end

