-- ==== Sys2Proof/Laws/Memory.lean ====
section
/-! SUPPORT. The byte arrays: a write keeps the canonical form, the written byte reads back, every other byte is unchanged. -/

namespace Sys2Proof.Machine

open Sys2Proof

@[simp] theorem Memory.read_nil (a : Nat) : Memory.read [] a = Memory.fill := rfl

theorem Memory.read_cons (c : Host.Cell) (m : Memory) (a : Nat) :
    Memory.read (c :: m) a = if c.1 = a then c.2 else Memory.read m a := rfl

theorem Memory.wf_nil : Memory.wf [] := by simp [Memory.wf]

theorem Memory.wf_cons {c : Host.Cell} {m : Memory} :
    Memory.wf (c :: m) ↔ (∀ d ∈ m, c.1 < d.1) ∧ c.2 ≠ Memory.fill ∧ Memory.wf m := by
  simp only [Memory.wf, List.pairwise_cons, List.mem_cons, forall_eq_or_imp]
  tauto

/-- An index below every listed one reads as the fill. -/
theorem Memory.read_of_lt {m : Memory} {a : Nat} (h : ∀ d ∈ m, a < d.1) : m.read a = Memory.fill := by
  induction m with
  | nil => rfl
  | cons c m ih =>
    have hc := h c (by simp)
    rw [Memory.read_cons, if_neg (by omega)]
    exact ih fun d hd => h d (by simp [hd])

/-- The indices a write leaves listed are the old ones and the written one. -/
theorem Memory.mem_write {m : Memory} {a : Nat} {b : Byte} {d : Host.Cell} (h : d ∈ m.write a b) : d ∈ m ∨ d = (a, b) := by
  induction m with
  | nil =>
    simp only [Memory.write] at h
    split at h <;> simp_all
  | cons c m ih =>
    simp only [Memory.write] at h
    split at h
    · split at h
      · exact .inl h
      · rcases List.mem_cons.1 h with h | h
        exacts [.inr h, .inl h]
    · split at h
      · split at h <;> simp_all; tauto
      · rcases List.mem_cons.1 h with rfl | h
        · simp
        · rcases ih h with h | h <;> simp [h]

/-- Every write keeps the canonical form. -/
theorem Memory.write_wf {m : Memory} (a : Nat) (b : Byte) (h : Memory.wf m) : Memory.wf (m.write a b) := by
  induction m with
  | nil =>
    simp only [Memory.write]
    split
    · exact h
    · rename_i hb
      exact Memory.wf_cons.2 ⟨by simp, hb, h⟩
  | cons c m ih =>
    obtain ⟨hlt, hc, hm⟩ := Memory.wf_cons.1 h
    simp only [Memory.write]
    split
    · rename_i hac
      split
      · exact h
      · rename_i hb
        refine Memory.wf_cons.2 ⟨fun d hd => ?_, hb, h⟩
        rcases List.mem_cons.1 hd with rfl | hd
        · exact hac
        · exact hac.trans (hlt d hd)
    · split
      · rename_i hac
        split
        · exact hm
        · rename_i hb
          exact Memory.wf_cons.2 ⟨fun d hd => by simpa [hac] using hlt d hd, hb, hm⟩
      · refine Memory.wf_cons.2 ⟨fun d hd => ?_, hc, ih hm⟩
        rcases Memory.mem_write hd with hd | rfl
        · exact hlt d hd
        · simp only; omega

/-- The written byte reads back. -/
theorem Memory.read_write_same {m : Memory} (a : Nat) (b : Byte) (h : Memory.wf m) : (m.write a b).read a = b := by
  induction m with
  | nil =>
    simp only [Memory.write]
    split <;> simp_all [Memory.read_cons]
  | cons c m ih =>
    obtain ⟨hlt, hc, hm⟩ := Memory.wf_cons.1 h
    simp only [Memory.write]
    split
    · rename_i hac
      split
      · rename_i hb
        rw [hb]
        refine Memory.read_of_lt fun d hd => ?_
        rcases List.mem_cons.1 hd with rfl | hd
        · exact hac
        · exact hac.trans (hlt d hd)
      · simp [Memory.read_cons]
    · split
      · rename_i hac
        split
        · rename_i hb
          rw [hb]
          exact Memory.read_of_lt fun d hd => by simpa [hac] using hlt d hd
        · simp [Memory.read_cons]
      · rename_i h1 h2
        rw [Memory.read_cons, if_neg (fun e => h2 e.symm)]
        exact ih hm

/-- A write leaves every other byte as it was. -/
theorem Memory.read_write_ne {m : Memory} {a a' : Nat} (b : Byte) (h : a' ≠ a) : (m.write a b).read a' = m.read a' := by
  induction m with
  | nil =>
    simp only [Memory.write]
    split
    · rfl
    · simp [Memory.read_cons, h.symm]
  | cons c m ih =>
    simp only [Memory.write]
    split
    · split
      · rfl
      · simp [Memory.read_cons, h.symm]
    · split
      · rename_i hac
        have hc : ¬ c.1 = a' := by omega
        split <;> simp [Memory.read_cons, h.symm, hc]
      · simp only [Memory.read_cons, ih]

theorem Memory.slice_length (m : Memory) (lo n : Nat) : (m.slice lo n).length = n := by simp [Memory.slice]

theorem Memory.slice_succ (m : Memory) (lo n : Nat) : m.slice lo (n + 1) = m.slice lo n ++ [m.read (lo + n)] := by
  simp [Memory.slice, List.range_succ]

/-- Writing just past a slice extends it by the byte. -/
theorem Memory.slice_write_end {m : Memory} (lo n : Nat) (b : Byte) (h : Memory.wf m) :
    (m.write (lo + n) b).slice lo (n + 1) = m.slice lo n ++ [b] := by
  rw [Memory.slice_succ, Memory.read_write_same _ _ h]
  congr 1
  refine List.map_congr_left fun k hk => Memory.read_write_ne b ?_
  have := List.mem_range.1 hk
  omega

end Sys2Proof.Machine
end

