-- ==== Sys2Proof/Laws/Container.lean ====
section
/-! SUPPORT. What the header parser accepts and what the payload walk finds. -/

namespace Sys2Proof.Machine

open Sys2Proof

/-- A value entry is its digits, the delimiter last. -/
theorem valueEntry_cons (b : Bool) (code : Bits) : valueEntry (b :: code) = asciiBit b :: valueEntry code := rfl

@[simp] theorem valueEntry_nil : valueEntry [] = [Config.delimiter] := rfl

@[simp] theorem asciiBit_ne_delimiter (b : Bool) : asciiBit b ≠ Config.delimiter := by cases b <;> decide

/-- A value entry parses exactly when it is a code of 1 to 255 digits and the delimiter. -/
theorem parseValue_iff (bytes : List Byte) (v : Bits) (hv : v.length ≤ 255) (w : Bits) (rest : List Byte) :
    parseValue bytes v = some (w, rest) ↔
      ∃ c : Bits, w = v ++ c ∧ bytes = valueEntry c ++ rest ∧ 1 ≤ w.length ∧ w.length ≤ 255 := by
  induction bytes generalizing v with
  | nil => simp [parseValue, valueEntry]
  | cons b bytes ih =>
    have other : ∀ c : Bits, b :: bytes = valueEntry c ++ rest → b ≠ Config.delimiter →
        ∃ x xs, c = x :: xs ∧ b = asciiBit x ∧ bytes = valueEntry xs ++ rest := fun c h hb => by
      cases c with
      | nil => simp at h; exact absurd h.1 hb
      | cons x xs => simp [valueEntry_cons] at h; exact ⟨x, xs, rfl, h⟩
    simp only [parseValue]
    split
    · rename_i hb
      subst hb
      have none : ∀ c : Bits, Config.delimiter :: bytes = valueEntry c ++ rest ↔ c = [] ∧ bytes = rest := fun c => by
        cases c with
        | nil => simp
        | cons x xs => simp [valueEntry_cons, (asciiBit_ne_delimiter x).symm]
      simp only [none]
      cases v with
      | nil => simp +contextual
      | cons x xs =>
        simp
        exact ⟨fun ⟨h1, h2⟩ => ⟨h1.symm, h2, by simpa [← h1] using hv⟩, fun ⟨h1, h2, _⟩ => ⟨h1.symm, h2⟩⟩
    · rename_i hb
      split
      · rename_i hd
        simp only [reduceCtorEq, false_iff]
        rintro ⟨c, -, h, -⟩
        obtain ⟨x, xs, -, hx, -⟩ := other c h hb
        cases x <;> simp [asciiBit] at hx <;> simp [hx] at hd
      · rename_i hd
        have hx : b = asciiBit (b == 0x31) := by
          by_cases h1 : b = 0x31
          · subst h1; rfl
          · have h0 : b = 0x30 := by tauto
            subst h0; rfl
        split
        · simp only [reduceCtorEq, false_iff]
          rintro ⟨c, rfl, h, -, hl⟩
          obtain ⟨x, xs, rfl, -, -⟩ := other c h hb
          simp at hl
          omega
        · rw [ih _ (by simp; omega)]
          constructor
          · rintro ⟨c, rfl, rfl, hl⟩
            exact ⟨(b == 0x31) :: c, by simp, by rw [valueEntry_cons, ← hx]; rfl, hl⟩
          · rintro ⟨c, rfl, h, hl⟩
            obtain ⟨x, xs, rfl, rfl, rfl⟩ := other c h hb
            refine ⟨xs, ?_, rfl, hl⟩
            cases x <;> simp [asciiBit]

/-- `n` value entries parse exactly when they are the entries of `n` codes of 1 to 255 digits. -/
theorem parseValues_iff (n : Nat) (bytes : List Byte) (codes : List Bits) (rest : List Byte) :
    parseValues n bytes = some (codes, rest) ↔
      codes.length = n ∧ bytes = codes.flatMap valueEntry ++ rest ∧ ∀ c ∈ codes, 1 ≤ c.length ∧ c.length ≤ 255 := by
  induction n generalizing bytes codes with
  | zero =>
    simp only [parseValues, Option.some.injEq, Prod.mk.injEq, List.length_eq_zero_iff]
    constructor
    · rintro ⟨rfl, rfl⟩; simp
    · rintro ⟨rfl, h, -⟩; simpa using h
  | succ n ih =>
    simp only [parseValues]
    constructor
    · intro h
      split at h
      · simp at h
      · rename_i v bytes' hv
        split at h
        · simp at h
        · rename_i vs bytes'' hvs
          simp at h
          obtain ⟨rfl, rfl⟩ := h
          obtain ⟨h1, h2, h3⟩ := (ih _ _).1 hvs
          obtain ⟨c, h4, h5, h6⟩ := (parseValue_iff _ _ (by simp) _ _).1 hv
          simp at h4
          subst h4
          exact ⟨by simp [h1], by simp [h5, h2], by simpa using ⟨h6, h3⟩⟩
    · rintro ⟨h1, h2, h3⟩
      cases codes with
      | nil => simp at h1
      | cons c codes =>
        have hv : parseValue bytes [] = some (c, codes.flatMap valueEntry ++ rest) :=
          (parseValue_iff _ _ (by simp) _ _).2 ⟨c, by simp, by simp [h2], h3 c (by simp)⟩
        have hvs := (ih (codes.flatMap valueEntry ++ rest) codes).2
          ⟨by simpa using h1, rfl, fun c hc => h3 c (by simp [hc])⟩
        simp [hv, hvs]

/-- The walk splits the bits into codes of the table and a rest that no code begins. -/
theorem walk_spec (table : List (Byte × Bits)) (bits cand : Bits) (hc : ∀ e ∈ table, e.2 ≠ [] → ¬ e.2 <+: cand) :
    ∃ (matched : List (Byte × Bits)) (left : Bits), (∀ e ∈ matched, e ∈ table ∧ e.2 ≠ []) ∧
      (∀ e ∈ table, e.2 ≠ [] → ¬ e.2 <+: left) ∧ cand ++ bits = matched.flatMap Prod.snd ++ left ∧
      walk table bits cand = (matched.map Prod.fst, left) := by
  induction bits generalizing cand with
  | nil => exact ⟨[], cand, by simp, hc, by simp, rfl⟩
  | cons b bits ih =>
    simp only [walk]
    split
    · rename_i e he
      have h1 := List.find?_some he
      have h2 := List.mem_of_find?_eq_some he
      simp at h1
      obtain ⟨m, l, h3, h4, h5, h6⟩ := ih [] fun e _ hne h => hne (by simpa using h)
      refine ⟨e :: m, l, ?_, h4, ?_, by simp [h6]⟩
      · intro e' he'
        rcases List.mem_cons.1 he' with rfl | he'
        · exact ⟨h2, by simp [h1]⟩
        · exact h3 e' he'
      · simp at h5
        simp [h1, ← h5]
    · rename_i he
      rw [List.find?_eq_none] at he
      obtain ⟨m, l, h3, h4, h5, h6⟩ := ih (cand ++ [b]) fun e hm hne h => by
        rw [List.prefix_concat_iff] at h
        rcases h with h | h
        · exact he e hm (by simp [h])
        · exact hc e hm hne h
      exact ⟨m, l, h3, h4, by simpa using h5, h6⟩

theorem pairwise_mem {α : Type} {r : α → α → Prop} {l : List α} (h : l.Pairwise r) {a b : α} (ha : a ∈ l) (hb : b ∈ l)
    (hab : a ≠ b) : r a b ∨ r b a := by
  induction l with
  | nil => simp at ha
  | cons x l ih =>
    obtain ⟨hx, hl⟩ := List.pairwise_cons.1 h
    rcases List.mem_cons.1 ha with rfl | ha' <;> rcases List.mem_cons.1 hb with rfl | hb'
    · exact absurd rfl hab
    · exact .inl (hx b hb')
    · exact .inr (hx a ha')
    · exact ih hl ha' hb'

/-- In a prefix-free table the walk reads a code of the table, begun by `cand`, as that entry. -/
theorem walk_code {table : List (Byte × Bits)} (hp : prefixFree (table.map Prod.snd)) {e : Byte × Bits} (he : e ∈ table)
    (cand code rest : Bits) (h : e.2 = cand ++ code) (hne : code ≠ []) :
    walk table (code ++ rest) cand = (e.1 :: (walk table rest []).1, (walk table rest []).2) := by
  have unique : ∀ e' ∈ table, e'.2 <+: e.2 → e' = e := fun e' he' hpre => by
    by_contra hn
    obtain h | h := pairwise_mem (List.pairwise_map.1 hp) he' he hn
    exacts [h.1 hpre, h.2 hpre]
  induction code generalizing cand with
  | nil => exact absurd rfl hne
  | cons b code ih =>
    simp only [List.cons_append, walk]
    by_cases h0 : code = []
    · subst h0
      have hf : table.find? (fun e' => e'.2 == cand ++ [b]) = some e := by
        rw [← h]
        cases hf : table.find? (fun e' => e'.2 == e.2) with
        | none => exact absurd (List.find?_eq_none.1 hf e he) (by simp)
        | some e' =>
          have h1 := List.find?_some hf
          simp at h1
          rw [unique e' (List.mem_of_find?_eq_some hf) (by rw [h1])]
      rw [hf]
      rfl
    · have hf : table.find? (fun e' => e'.2 == cand ++ [b]) = none := List.find?_eq_none.2 fun e' he' hq => by
        simp at hq
        have heq := unique e' he' (by rw [hq, h]; exact ⟨code, by simp⟩)
        rw [← heq, hq] at h
        have := congrArg List.length h
        simp at this
        exact h0 this
      rw [hf]
      exact ih (cand ++ [b]) (by simp [h]) h0

/-- In a prefix-free table the walk over the codes of some entries finds just those entries, and no bit is left. -/
theorem walk_codes {table : List (Byte × Bits)} (hp : prefixFree (table.map Prod.snd)) (entries : List (Byte × Bits))
    (h : ∀ e ∈ entries, e ∈ table ∧ e.2 ≠ []) :
    walk table (entries.flatMap Prod.snd) [] = (entries.map Prod.fst, []) := by
  induction entries with
  | nil => rfl
  | cons e entries ih =>
    rw [List.flatMap_cons, walk_code hp (h e (by simp)).1 [] e.2 _ rfl (h e (by simp)).2, ih fun e he => h e (by simp [he])]
    simp

theorem container_length (s : State) : s.container.length = s.clen.toNat := Memory.slice_length _ _ _

/-- The container's bytes are those of CBUF. -/
theorem container_getElem (s : State) (i : Nat) (h : i < s.container.length) : s.container[i] = s.cbuf.read i := by
  simp [State.container, Memory.slice]

end Sys2Proof.Machine
end

