-- ==== Sys2Proof/Laws/Decode.lean ====
section
/-! SUPPORT. The fields of a word put together, and what an assigned opcode decodes to. -/

namespace Sys2Proof

/-- The bits of a word put together from its fields. -/
theorem wordOf_getLsbD (opc imm8 : Byte) (j : Nat) :
    (wordOf opc imm8).getLsbD j = if j < 8 then opc.getLsbD j else imm8.getLsbD (j - 8) := by
  rw [wordOf, BitVec.getLsbD_append, BitVec.getLsbD_append]
  by_cases h : j - 8 < 8
  · simp [h]
  · simp [h, BitVec.getLsbD_of_ge imm8 _ (Nat.not_lt.1 h)]

/-- The fields of a legal word are the ones it was put together from. -/
@[simp] theorem fieldsOf_wordOf (opc imm8 : Byte) : fieldsOf (wordOf opc imm8) = { opc := opc, imm8 := imm8, rsv := 0 } := by
  simp only [fieldsOf, Fields.mk.injEq]
  refine ⟨?_, ?_, ?_⟩ <;> apply BitVec.eq_of_getLsbD_eq <;> intro j hj <;>
    rw [BitVec.getLsbD_extractLsb', wordOf_getLsbD]
  · simp [hj]
  · simp [hj]
  · have h : 8 ≤ 16 + j - 8 := by omega
    simp [show ¬ 16 + j < 8 by omega, BitVec.getLsbD_of_ge imm8 _ h]

/-- A command word whose reserved bits are 0 is put together from its two other fields. -/
theorem wordOf_fieldsOf {w : Word} (h : (fieldsOf w).rsv = 0) : wordOf (fieldsOf w).opc (fieldsOf w).imm8 = w := by
  have h' : ∀ j, j < 16 → w.getLsbD (16 + j) = false := fun j hj => by
    have := congrArg (·.getLsbD j) h
    simpa [fieldsOf, hj] using this
  apply BitVec.eq_of_getLsbD_eq
  intro j hj
  simp only [wordOf, fieldsOf, BitVec.getLsbD_append]
  by_cases h1 : j < 8
  · simp [h1]
  · by_cases h2 : j - 8 < 8
    · simp [h1, h2, show 8 + (j - 8) = j by omega]
    · have := h' (j - 16) (by omega)
      simp_all [show 16 + (j - 16) = j by omega]

/-- A plain opcode allows no operand, so a command an opcode names, with an allowed operand, has that word. -/
theorem encode_of_commandOf {opc imm8 : Byte} {i : Instr} (h : commandOf opc imm8 = some i)
    (ha : Fields.operandAllowed { opc := opc, imm8 := imm8, rsv := 0 } = true) : encode i = wordOf opc imm8 := by
  have value : ∀ n, opc.toNat = n → opc = BitVec.ofNat 8 n := fun n hn => by subst hn; simp
  unfold commandOf at h
  split at h <;> try contradiction
  all_goals
    rename_i ho
    have ho := value _ ho
    subst ho
    cases h
    simp [Fields.operandAllowed, plainOpcodes] at ha
    simp_all [encode]

end Sys2Proof
end

