-- ==== Sys2Proof/Laws/State.lean ====
section
/-! SUPPORT. One lemma per field per shared update of the state, each by unfolding the update once. -/

namespace Sys2Proof.Machine

open Sys2Proof

/-! ## emit bytes s -/

@[simp] theorem emit_cmdreg (bytes : List Byte) (s : State) : (emit bytes s).cmdreg = s.cmdreg := rfl
@[simp] theorem emit_pending (bytes : List Byte) (s : State) : (emit bytes s).pending = s.pending := rfl
@[simp] theorem emit_err (bytes : List Byte) (s : State) : (emit bytes s).err = s.err := rfl
@[simp] theorem emit_phase (bytes : List Byte) (s : State) : (emit bytes s).phase = s.phase := rfl
@[simp] theorem emit_total (bytes : List Byte) (s : State) : (emit bytes s).total = s.total := rfl
@[simp] theorem emit_tabn (bytes : List Byte) (s : State) : (emit bytes s).tabn = s.tabn := rfl
@[simp] theorem emit_pad (bytes : List Byte) (s : State) : (emit bytes s).pad = s.pad := rfl
@[simp] theorem emit_bitlen (bytes : List Byte) (s : State) : (emit bytes s).bitlen = s.bitlen := rfl
@[simp] theorem emit_clen (bytes : List Byte) (s : State) : (emit bytes s).clen = s.clen := rfl
@[simp] theorem emit_hist (bytes : List Byte) (s : State) : (emit bytes s).hist = s.hist := rfl
@[simp] theorem emit_symbuf (bytes : List Byte) (s : State) : (emit bytes s).symbuf = s.symbuf := rfl
@[simp] theorem emit_arena (bytes : List Byte) (s : State) : (emit bytes s).arena = s.arena := rfl
@[simp] theorem emit_root (bytes : List Byte) (s : State) : (emit bytes s).root = s.root := rfl
@[simp] theorem emit_ct (bytes : List Byte) (s : State) : (emit bytes s).ct = s.ct := rfl
@[simp] theorem emit_order (bytes : List Byte) (s : State) : (emit bytes s).order = s.order := rfl
@[simp] theorem emit_cbuf (bytes : List Byte) (s : State) : (emit bytes s).cbuf = s.cbuf := rfl
@[simp] theorem emit_dt (bytes : List Byte) (s : State) : (emit bytes s).dt = s.dt := rfl
@[simp] theorem emit_ppos (bytes : List Byte) (s : State) : (emit bytes s).ppos = s.ppos := rfl
@[simp] theorem emit_pendOut (bytes : List Byte) (s : State) : (emit bytes s).pendOut = s.pendOut ++ bytes := rfl
@[simp] theorem emit_out (bytes : List Byte) (s : State) : (emit bytes s).out = s.out := rfl
@[simp] theorem emit_params (bytes : List Byte) (s : State) : (emit bytes s).params = s.params := rfl
@[simp] theorem emit_host (bytes : List Byte) (s : State) : (emit bytes s).host = s.host := rfl
@[simp] theorem emit_reads (bytes : List Byte) (s : State) : (emit bytes s).reads = s.reads := rfl
@[simp] theorem emit_freeCount (bytes : List Byte) (s : State) : (emit bytes s).freeCount = s.freeCount := rfl
@[simp] theorem emit_opened (bytes : List Byte) (s : State) : (emit bytes s).opened = s.opened := rfl

/-! ## raise e s -/

@[simp] theorem raise_cmdreg (e : ErrCode) (s : State) : (raise e s).cmdreg = s.cmdreg := rfl
@[simp] theorem raise_pending (e : ErrCode) (s : State) : (raise e s).pending = s.pending := rfl
@[simp] theorem raise_err (e : ErrCode) (s : State) : (raise e s).err = e := rfl
@[simp] theorem raise_phase (e : ErrCode) (s : State) : (raise e s).phase = .error := rfl
@[simp] theorem raise_total (e : ErrCode) (s : State) : (raise e s).total = s.total := rfl
@[simp] theorem raise_tabn (e : ErrCode) (s : State) : (raise e s).tabn = s.tabn := rfl
@[simp] theorem raise_pad (e : ErrCode) (s : State) : (raise e s).pad = s.pad := rfl
@[simp] theorem raise_bitlen (e : ErrCode) (s : State) : (raise e s).bitlen = s.bitlen := rfl
@[simp] theorem raise_clen (e : ErrCode) (s : State) : (raise e s).clen = s.clen := rfl
@[simp] theorem raise_hist (e : ErrCode) (s : State) : (raise e s).hist = s.hist := rfl
@[simp] theorem raise_symbuf (e : ErrCode) (s : State) : (raise e s).symbuf = s.symbuf := rfl
@[simp] theorem raise_arena (e : ErrCode) (s : State) : (raise e s).arena = s.arena := rfl
@[simp] theorem raise_root (e : ErrCode) (s : State) : (raise e s).root = s.root := rfl
@[simp] theorem raise_ct (e : ErrCode) (s : State) : (raise e s).ct = s.ct := rfl
@[simp] theorem raise_order (e : ErrCode) (s : State) : (raise e s).order = s.order := rfl
@[simp] theorem raise_cbuf (e : ErrCode) (s : State) : (raise e s).cbuf = s.cbuf := rfl
@[simp] theorem raise_dt (e : ErrCode) (s : State) : (raise e s).dt = s.dt := rfl
@[simp] theorem raise_ppos (e : ErrCode) (s : State) : (raise e s).ppos = s.ppos := rfl
@[simp] theorem raise_pendOut (e : ErrCode) (s : State) : (raise e s).pendOut = s.pendOut := rfl
@[simp] theorem raise_out (e : ErrCode) (s : State) : (raise e s).out = s.out := rfl
@[simp] theorem raise_params (e : ErrCode) (s : State) : (raise e s).params = s.params := rfl
@[simp] theorem raise_host (e : ErrCode) (s : State) : (raise e s).host = s.host := rfl
@[simp] theorem raise_reads (e : ErrCode) (s : State) : (raise e s).reads = s.reads := rfl
@[simp] theorem raise_freeCount (e : ErrCode) (s : State) : (raise e s).freeCount = s.freeCount := rfl
@[simp] theorem raise_opened (e : ErrCode) (s : State) : (raise e s).opened = s.opened := rfl

/-! ## retire s -/

@[simp] theorem retire_cmdreg (s : State) : (retire s).cmdreg = s.cmdreg := rfl
@[simp] theorem retire_pending (s : State) : (retire s).pending = false := rfl
@[simp] theorem retire_err (s : State) : (retire s).err = s.err := rfl
@[simp] theorem retire_phase (s : State) : (retire s).phase = s.phase := rfl
@[simp] theorem retire_total (s : State) : (retire s).total = s.total := rfl
@[simp] theorem retire_tabn (s : State) : (retire s).tabn = s.tabn := rfl
@[simp] theorem retire_pad (s : State) : (retire s).pad = s.pad := rfl
@[simp] theorem retire_bitlen (s : State) : (retire s).bitlen = s.bitlen := rfl
@[simp] theorem retire_clen (s : State) : (retire s).clen = s.clen := rfl
@[simp] theorem retire_hist (s : State) : (retire s).hist = s.hist := rfl
@[simp] theorem retire_symbuf (s : State) : (retire s).symbuf = s.symbuf := rfl
@[simp] theorem retire_arena (s : State) : (retire s).arena = s.arena := rfl
@[simp] theorem retire_root (s : State) : (retire s).root = s.root := rfl
@[simp] theorem retire_ct (s : State) : (retire s).ct = s.ct := rfl
@[simp] theorem retire_order (s : State) : (retire s).order = s.order := rfl
@[simp] theorem retire_cbuf (s : State) : (retire s).cbuf = s.cbuf := rfl
@[simp] theorem retire_dt (s : State) : (retire s).dt = s.dt := rfl
@[simp] theorem retire_ppos (s : State) : (retire s).ppos = s.ppos := rfl
@[simp] theorem retire_pendOut (s : State) : (retire s).pendOut = s.pendOut := rfl
@[simp] theorem retire_out (s : State) : (retire s).out = s.out := rfl
@[simp] theorem retire_params (s : State) : (retire s).params = s.params := rfl
@[simp] theorem retire_host (s : State) : (retire s).host = s.host := rfl
@[simp] theorem retire_reads (s : State) : (retire s).reads = s.reads := rfl
@[simp] theorem retire_freeCount (s : State) : (retire s).freeCount = s.freeCount := rfl
@[simp] theorem retire_opened (s : State) : (retire s).opened = s.opened := rfl

/-! ## freeDt s -/

@[simp] theorem freeDt_cmdreg (s : State) : (freeDt s).cmdreg = s.cmdreg := rfl
@[simp] theorem freeDt_pending (s : State) : (freeDt s).pending = s.pending := rfl
@[simp] theorem freeDt_err (s : State) : (freeDt s).err = s.err := rfl
@[simp] theorem freeDt_phase (s : State) : (freeDt s).phase = s.phase := rfl
@[simp] theorem freeDt_total (s : State) : (freeDt s).total = s.total := rfl
@[simp] theorem freeDt_tabn (s : State) : (freeDt s).tabn = s.tabn := rfl
@[simp] theorem freeDt_pad (s : State) : (freeDt s).pad = s.pad := rfl
@[simp] theorem freeDt_bitlen (s : State) : (freeDt s).bitlen = s.bitlen := rfl
@[simp] theorem freeDt_clen (s : State) : (freeDt s).clen = s.clen := rfl
@[simp] theorem freeDt_hist (s : State) : (freeDt s).hist = s.hist := rfl
@[simp] theorem freeDt_symbuf (s : State) : (freeDt s).symbuf = s.symbuf := rfl
@[simp] theorem freeDt_arena (s : State) : (freeDt s).arena = s.arena := rfl
@[simp] theorem freeDt_root (s : State) : (freeDt s).root = s.root := rfl
@[simp] theorem freeDt_ct (s : State) : (freeDt s).ct = s.ct := rfl
@[simp] theorem freeDt_order (s : State) : (freeDt s).order = s.order := rfl
@[simp] theorem freeDt_cbuf (s : State) : (freeDt s).cbuf = s.cbuf := rfl
@[simp] theorem freeDt_ppos (s : State) : (freeDt s).ppos = s.ppos := rfl
@[simp] theorem freeDt_pendOut (s : State) : (freeDt s).pendOut = s.pendOut := rfl
@[simp] theorem freeDt_out (s : State) : (freeDt s).out = s.out := rfl
@[simp] theorem freeDt_params (s : State) : (freeDt s).params = s.params := rfl
@[simp] theorem freeDt_host (s : State) : (freeDt s).host = s.host := rfl
@[simp] theorem freeDt_reads (s : State) : (freeDt s).reads = s.reads := rfl
@[simp] theorem freeDt_freeCount (s : State) : (freeDt s).freeCount = s.freeCount + 1 := rfl
@[simp] theorem freeDt_opened (s : State) : (freeDt s).opened = s.opened := rfl

/-! ## resetElements s -/

@[simp] theorem resetElements_cmdreg (s : State) : (resetElements s).cmdreg = 0 := rfl
@[simp] theorem resetElements_pending (s : State) : (resetElements s).pending = false := rfl
@[simp] theorem resetElements_err (s : State) : (resetElements s).err = .none := rfl
@[simp] theorem resetElements_phase (s : State) : (resetElements s).phase = .idle := rfl
@[simp] theorem resetElements_total (s : State) : (resetElements s).total = 0 := rfl
@[simp] theorem resetElements_tabn (s : State) : (resetElements s).tabn = 0 := rfl
@[simp] theorem resetElements_pad (s : State) : (resetElements s).pad = 0 := rfl
@[simp] theorem resetElements_bitlen (s : State) : (resetElements s).bitlen = 0 := rfl
@[simp] theorem resetElements_clen (s : State) : (resetElements s).clen = 0 := rfl
@[simp] theorem resetElements_hist (s : State) : (resetElements s).hist = Vector.replicate 256 0 := rfl
@[simp] theorem resetElements_symbuf (s : State) : (resetElements s).symbuf = [] := rfl
@[simp] theorem resetElements_arena (s : State) : (resetElements s).arena = Vector.replicate 509 Node.unused := rfl
@[simp] theorem resetElements_root (s : State) : (resetElements s).root = Config.nil := rfl
@[simp] theorem resetElements_ct (s : State) : (resetElements s).ct = Vector.replicate 256 { valid := false, len := 0, code := 0 } := rfl
@[simp] theorem resetElements_order (s : State) : (resetElements s).order = Vector.replicate 255 0 := rfl
@[simp] theorem resetElements_cbuf (s : State) : (resetElements s).cbuf = [] := rfl
@[simp] theorem resetElements_dt (s : State) : (resetElements s).dt = Vector.replicate 255 { key := 0, len := 0, code := 0 } := rfl
@[simp] theorem resetElements_ppos (s : State) : (resetElements s).ppos = 0 := rfl
@[simp] theorem resetElements_pendOut (s : State) : (resetElements s).pendOut = [] := rfl
@[simp] theorem resetElements_out (s : State) : (resetElements s).out = [] := rfl
@[simp] theorem resetElements_params (s : State) : (resetElements s).params = s.params := rfl
@[simp] theorem resetElements_host (s : State) : (resetElements s).host = s.host := rfl
@[simp] theorem resetElements_reads (s : State) : (resetElements s).reads = s.reads := rfl
@[simp] theorem resetElements_freeCount (s : State) : (resetElements s).freeCount = s.freeCount := rfl
@[simp] theorem resetElements_opened (s : State) : (resetElements s).opened = s.reads.length := rfl

/-! ## clearAll s -/

@[simp] theorem clearAll_cmdreg (s : State) : (clearAll s).cmdreg = 0 := rfl
@[simp] theorem clearAll_pending (s : State) : (clearAll s).pending = s.pending := rfl
@[simp] theorem clearAll_err (s : State) : (clearAll s).err = .none := rfl
@[simp] theorem clearAll_phase (s : State) : (clearAll s).phase = .idle := rfl
@[simp] theorem clearAll_total (s : State) : (clearAll s).total = 0 := rfl
@[simp] theorem clearAll_tabn (s : State) : (clearAll s).tabn = 0 := rfl
@[simp] theorem clearAll_pad (s : State) : (clearAll s).pad = 0 := rfl
@[simp] theorem clearAll_bitlen (s : State) : (clearAll s).bitlen = 0 := rfl
@[simp] theorem clearAll_clen (s : State) : (clearAll s).clen = 0 := rfl
@[simp] theorem clearAll_hist (s : State) : (clearAll s).hist = Vector.replicate 256 0 := rfl
@[simp] theorem clearAll_symbuf (s : State) : (clearAll s).symbuf = [] := rfl
@[simp] theorem clearAll_arena (s : State) : (clearAll s).arena = Vector.replicate 509 Node.unused := rfl
@[simp] theorem clearAll_root (s : State) : (clearAll s).root = Config.nil := rfl
@[simp] theorem clearAll_ct (s : State) : (clearAll s).ct = Vector.replicate 256 { valid := false, len := 0, code := 0 } := rfl
@[simp] theorem clearAll_order (s : State) : (clearAll s).order = Vector.replicate 255 0 := rfl
@[simp] theorem clearAll_cbuf (s : State) : (clearAll s).cbuf = [] := rfl
@[simp] theorem clearAll_dt (s : State) : (clearAll s).dt = Vector.replicate 255 { key := 0, len := 0, code := 0 } := rfl
@[simp] theorem clearAll_ppos (s : State) : (clearAll s).ppos = 0 := rfl
@[simp] theorem clearAll_pendOut (s : State) : (clearAll s).pendOut = [] := rfl
@[simp] theorem clearAll_out (s : State) : (clearAll s).out = [] := rfl
@[simp] theorem clearAll_params (s : State) : (clearAll s).params = s.params := rfl
@[simp] theorem clearAll_host (s : State) : (clearAll s).host = s.host := rfl
@[simp] theorem clearAll_reads (s : State) : (clearAll s).reads = s.reads := rfl
@[simp] theorem clearAll_freeCount (s : State) : (clearAll s).freeCount = s.freeCount := rfl
@[simp] theorem clearAll_opened (s : State) : (clearAll s).opened = s.reads.length := rfl

/-! ## State.resetWith p -/

@[simp] theorem resetWith_cmdreg (p : Params) : (State.resetWith p).cmdreg = 0 := rfl
@[simp] theorem resetWith_pending (p : Params) : (State.resetWith p).pending = false := rfl
@[simp] theorem resetWith_err (p : Params) : (State.resetWith p).err = .none := rfl
@[simp] theorem resetWith_phase (p : Params) : (State.resetWith p).phase = .idle := rfl
@[simp] theorem resetWith_total (p : Params) : (State.resetWith p).total = 0 := rfl
@[simp] theorem resetWith_tabn (p : Params) : (State.resetWith p).tabn = 0 := rfl
@[simp] theorem resetWith_pad (p : Params) : (State.resetWith p).pad = 0 := rfl
@[simp] theorem resetWith_bitlen (p : Params) : (State.resetWith p).bitlen = 0 := rfl
@[simp] theorem resetWith_clen (p : Params) : (State.resetWith p).clen = 0 := rfl
@[simp] theorem resetWith_hist (p : Params) : (State.resetWith p).hist = Vector.replicate 256 0 := rfl
@[simp] theorem resetWith_symbuf (p : Params) : (State.resetWith p).symbuf = [] := rfl
@[simp] theorem resetWith_arena (p : Params) : (State.resetWith p).arena = Vector.replicate 509 Node.unused := rfl
@[simp] theorem resetWith_root (p : Params) : (State.resetWith p).root = Config.nil := rfl
@[simp] theorem resetWith_ct (p : Params) : (State.resetWith p).ct = Vector.replicate 256 { valid := false, len := 0, code := 0 } := rfl
@[simp] theorem resetWith_order (p : Params) : (State.resetWith p).order = Vector.replicate 255 0 := rfl
@[simp] theorem resetWith_cbuf (p : Params) : (State.resetWith p).cbuf = [] := rfl
@[simp] theorem resetWith_dt (p : Params) : (State.resetWith p).dt = Vector.replicate 255 { key := 0, len := 0, code := 0 } := rfl
@[simp] theorem resetWith_ppos (p : Params) : (State.resetWith p).ppos = 0 := rfl
@[simp] theorem resetWith_pendOut (p : Params) : (State.resetWith p).pendOut = [] := rfl
@[simp] theorem resetWith_out (p : Params) : (State.resetWith p).out = [] := rfl
@[simp] theorem resetWith_params (p : Params) : (State.resetWith p).params = p := rfl
@[simp] theorem resetWith_host (p : Params) : (State.resetWith p).host = [] := rfl
@[simp] theorem resetWith_reads (p : Params) : (State.resetWith p).reads = [] := rfl
@[simp] theorem resetWith_freeCount (p : Params) : (State.resetWith p).freeCount = 0 := rfl
@[simp] theorem resetWith_opened (p : Params) : (State.resetWith p).opened = 0 := rfl

end Sys2Proof.Machine
end

