-- ==== Sys2Proof/Laws/Ops.lean ====
section
/-! SUPPORT. What the stages of a command can do, said once: every command gives a next state, by one of three ways. -/

namespace Sys2Proof.Machine

open Sys2Proof

/-- The checks and effects each command makes once its phase is legal. -/
def perform : Instr → State → State
  | .nop => fun s => s
  | .clr => clearAll
  | .cnt b => performCnt b
  | .rdhist b => fun s => emit (bigEndian (s.histAt b)) s
  | .build => performBuild
  | .gen => performGen
  | .rdcode b => fun s => emit (codeBytes (s.ctAt b)) s
  | .hdr => performHdr
  | .pack => performPack
  | .enc => andThen performBuild (andThen performGen (andThen performHdr performPack))
  | .din b => performDin b
  | .dhdr => performDhdr
  | .dpay => performDpay
  | .dec => andThen performDhdr performDpay

/-- Every command goes through the same stages. -/
theorem exec_eq_execute (i : Instr) (s : State) : exec i s = execute i (perform i) s := by cases i <;> rfl

/-- The error gate: the command is ignored. -/
theorem execute_gated {i : Instr} {f : State → State} {s : State} (h : s.phase = .error) (hi : passesErrorGate i = false) :
    execute i f s = .next (retire s) := by simp [execute, h, hi]

/-- The phase check: SEQUENCE. -/
theorem execute_sequence {i : Instr} {f : State → State} {s : State} (h : s.phase ≠ .error) (hi : legal i s.phase = false) :
    execute i f s = .next (retire (raise .sequence s)) := by simp [execute, h, hi]

/-- A legal command performs. -/
theorem execute_legal {i : Instr} {f : State → State} {s : State} (hi : legal i s.phase = true)
    (h : s.phase = .error → passesErrorGate i = true) : execute i f s = .next (retire (f s)) := by
  by_cases hp : s.phase = .error <;> simp_all [execute]

/-- Every command ends in a next state, in one of three ways. -/
theorem execute_cases {i : Instr} {f : State → State} {s t : State} (h : execute i f s = .next t) :
    (s.phase = .error ∧ passesErrorGate i = false ∧ t = retire s) ∨
    (legal i s.phase = false ∧ t = retire (raise .sequence s)) ∨
    (legal i s.phase = true ∧ t = retire (f s)) := by
  simp only [execute, Host.Outcome.next.injEq] at h
  split at h
  · rename_i h'
    exact .inl ⟨h'.1, h'.2, h.symm⟩
  · split at h
    · rename_i h'
      exact .inr (.inl ⟨h', h.symm⟩)
    · rename_i h'
      exact .inr (.inr ⟨by simpa using h', h.symm⟩)

theorem exec_next (i : Instr) (s : State) : ∃ t, exec i s = .next t := ⟨_, exec_eq_execute i s⟩

/-- Only NOP and CLR pass the error gate, and the legality table lets them run in every phase. -/
theorem legal_error (i : Instr) : legal i .error = passesErrorGate i := by cases i <;> rfl

/-- A command that ran was legal in a phase other than ERROR, or is NOP or CLR. -/
theorem legal_not_error {i : Instr} {p : Phase} (h : legal i p = true) (hi : passesErrorGate i = false) : p ≠ .error := by
  rintro rfl
  rw [legal_error, hi] at h
  exact absurd h (by decide)

/-- A chain goes on from a first part that did not raise. -/
theorem andThen_of_ok {f g : State → State} {s : State} (h : (f s).phase ≠ .error) : andThen f g s = g (f s) := by
  simp [andThen, h]

/-- A chain stops at a first part that raised. -/
theorem andThen_of_error {f g : State → State} {s : State} (h : (f s).phase = .error) : andThen f g s = f s := by
  simp [andThen, h]

/-! ## The commands' own effects, one equation per outcome -/

theorem performBuild_empty {s : State} (h : s.total = 0) : performBuild s = raise .emptyInput s := by simp [performBuild, h]

theorem performBuild_eq {s : State} (h : s.total ≠ 0) :
    performBuild s = { s with
      arena := (buildTree s.histAt s.arena).arena, root := BitVec.ofNat 9 (buildTree s.histAt s.arena).root
      tabn := BitVec.ofNat 8 (buildTree s.histAt s.arena).size, phase := .eBuilt } := if_neg h

@[simp] theorem performGen_phase (s : State) : (performGen s).phase = .eGen := rfl
@[simp] theorem performHdr_phase (s : State) : (performHdr s).phase = .eHdr := rfl
@[simp] theorem performPack_phase (s : State) : (performPack s).phase = .eDone := rfl

/-- ENC's chain on an empty histogram. -/
theorem performEnc_empty {s : State} (h : s.total = 0) : perform .enc s = raise .emptyInput s := by
  rw [perform, andThen_of_error] <;> simp [performBuild_empty h]

/-- ENC's chain is the four parts in order. -/
theorem performEnc_eq {s : State} (h : s.total ≠ 0) :
    perform .enc s = performPack (performHdr (performGen (performBuild s))) := by
  rw [perform, andThen_of_ok (by simp [performBuild_eq h]), andThen_of_ok (by simp), andThen_of_ok (by simp)]

/-- DPAY ends in D_DONE or raises CORRUPTED_PAYLOAD; either way it only emits. -/
theorem performDpay_cases (s : State) : ∃ bytes,
    performDpay s = { emit bytes s with phase := .dDone } ∨ performDpay s = raise .corruptedPayload (emit bytes s) := by
  have h0 : emit [] s = s := by simp [emit]
  simp only [performDpay]
  split
  · exact ⟨[], .inr (by rw [h0])⟩
  · split
    · exact ⟨[], .inr (by rw [h0])⟩
    · split
      · exact ⟨[], .inr (by rw [h0])⟩
      · split
        · exact ⟨_, .inl rfl⟩
        · exact ⟨_, .inr rfl⟩

end Sys2Proof.Machine
end

