-- ==== Sys2Proof/Laws/Frame.lean ====
section
/-! SUPPORT. What no command touches, said once for all of them: OUT, the window's command register, the host's side and the
parameters; and that a command only appends to PEND_OUT. -/

namespace Sys2Proof.Machine

open Sys2Proof

/-- `t` differs from `s` in what a command other than CLR may change: it keeps CMDREG, PENDING, OUT, the host's side (where
its operation opens too) and the parameters, and PEND_OUT only grew at its end. -/
structure Emits (s t : State) : Prop where
  pendOut : ∃ bytes, t.pendOut = s.pendOut ++ bytes
  out : t.out = s.out
  cmdreg : t.cmdreg = s.cmdreg
  pending : t.pending = s.pending
  params : t.params = s.params
  host : t.host = s.host
  reads : t.reads = s.reads
  opened : t.opened = s.opened

theorem Emits.refl (s : State) : Emits s s := ⟨⟨[], by simp⟩, rfl, rfl, rfl, rfl, rfl, rfl, rfl⟩

theorem Emits.trans {s t u : State} (h : Emits s t) (h' : Emits t u) : Emits s u := by
  obtain ⟨b, hb⟩ := h.pendOut
  obtain ⟨b', hb'⟩ := h'.pendOut
  exact ⟨⟨b ++ b', by rw [hb', hb, List.append_assoc]⟩, h'.out.trans h.out, h'.cmdreg.trans h.cmdreg,
    h'.pending.trans h.pending, h'.params.trans h.params, h'.host.trans h.host, h'.reads.trans h.reads, h'.opened.trans h.opened⟩

theorem Emits.andThen {s : State} {f g : State → State} (hf : ∀ s, Emits s (f s)) (hg : ∀ s, Emits s (g s)) :
    Emits s (Machine.andThen f g s) := by
  simp only [Machine.andThen]
  split
  · exact hf s
  · exact (hf s).trans (hg _)

theorem performBuild_emits (s : State) : Emits s (performBuild s) := by
  by_cases h : s.total = 0
  · rw [performBuild_empty h]; exact ⟨⟨[], by simp⟩, rfl, rfl, rfl, rfl, rfl, rfl, rfl⟩
  · rw [performBuild_eq h]; exact ⟨⟨[], by simp⟩, rfl, rfl, rfl, rfl, rfl, rfl, rfl⟩

theorem performGen_emits (s : State) : Emits s (performGen s) :=
  ⟨⟨[], by simp [performGen]⟩, rfl, rfl, rfl, rfl, rfl, rfl, rfl⟩

theorem performHdr_emits (s : State) : Emits s (performHdr s) := ⟨⟨_, rfl⟩, rfl, rfl, rfl, rfl, rfl, rfl, rfl⟩

theorem performPack_emits (s : State) : Emits s (performPack s) := ⟨⟨_, rfl⟩, rfl, rfl, rfl, rfl, rfl, rfl, rfl⟩

theorem performDhdr_emits (s : State) : Emits s (performDhdr s) := by
  unfold performDhdr
  split <;> exact ⟨⟨[], by simp⟩, rfl, rfl, rfl, rfl, rfl, rfl, rfl⟩

theorem performDpay_emits (s : State) : Emits s (performDpay s) := by
  obtain ⟨bytes, h | h⟩ := performDpay_cases s <;> rw [h] <;> exact ⟨⟨bytes, by simp⟩, rfl, rfl, rfl, rfl, rfl, rfl, rfl⟩

/-- Every command but CLR only emits, beside the registers and arrays of its own. -/
theorem perform_emits (i : Instr) (s : State) (hi : i ≠ .clr) : Emits s (perform i s) := by
  cases i with
  | clr => exact absurd rfl hi
  | nop => exact Emits.refl s
  | cnt b =>
    simp only [perform, performCnt]
    split
    · exact ⟨⟨[], by simp⟩, rfl, rfl, rfl, rfl, rfl, rfl, rfl⟩
    · split <;> exact ⟨⟨[], by simp⟩, rfl, rfl, rfl, rfl, rfl, rfl, rfl⟩
  | din b =>
    simp only [perform, performDin]
    split <;> exact ⟨⟨[], by simp⟩, rfl, rfl, rfl, rfl, rfl, rfl, rfl⟩
  | rdhist b => exact ⟨⟨_, rfl⟩, rfl, rfl, rfl, rfl, rfl, rfl, rfl⟩
  | rdcode b => exact ⟨⟨_, rfl⟩, rfl, rfl, rfl, rfl, rfl, rfl, rfl⟩
  | build => exact performBuild_emits s
  | gen => exact performGen_emits s
  | hdr => exact performHdr_emits s
  | pack => exact performPack_emits s
  | enc =>
    exact Emits.andThen performBuild_emits fun s =>
      Emits.andThen performGen_emits fun s => Emits.andThen performHdr_emits performPack_emits
  | dhdr => exact performDhdr_emits s
  | dpay => exact performDpay_emits s
  | dec => exact Emits.andThen performDhdr_emits performDpay_emits

/-- No command touches the host's events, its reads or the parameters. -/
theorem exec_keeps_host {i : Instr} {s t : State} (h : exec i s = .next t) :
    t.host = s.host ∧ t.reads = s.reads ∧ t.params = s.params := by
  rw [exec_eq_execute] at h
  obtain ⟨-, -, rfl⟩ | ⟨-, rfl⟩ | ⟨-, rfl⟩ := execute_cases h
  · exact ⟨rfl, rfl, rfl⟩
  · exact ⟨rfl, rfl, rfl⟩
  · by_cases hi : i = .clr
    · subst hi
      exact ⟨rfl, rfl, rfl⟩
    · have he := perform_emits i s hi
      exact ⟨he.host, he.reads, he.params⟩

end Sys2Proof.Machine
end

