-- ==== Sys2Proof/Laws/Step.lean ====
section
/-! SUPPORT. What one step can do, said once: the block's three moves, and one equation per host event. -/

namespace Sys2Proof.Machine

open Sys2Proof

/-- The outcome of a move. -/
def Move.outcome : Move → Host.Outcome State Fault Refusal
  | .run i s => exec i s
  | .done o => o

theorem step_eq (s : State) : step s = (nextMove s).outcome := by
  unfold step Move.outcome
  cases nextMove s <;> rfl

/-- The block's move, by cases: a command, an illegal word, a delivery, or nothing. -/
theorem blockMove_cases (s : State) :
    (∃ i, s.pending = true ∧ decode s.cmdreg = .ok i ∧ (blockMove s).outcome = exec i s) ∨
    (∃ e, s.pending = true ∧ decode s.cmdreg = .error e ∧ (blockMove s).outcome = .next (illegalWord s)) ∨
    (s.pending = false ∧ s.canDeliver = true ∧ (blockMove s).outcome = .next (deliver s)) ∨
    (s.pending = false ∧ s.canDeliver = false ∧ (blockMove s).outcome = .next s) := by
  unfold blockMove
  cases hp : s.pending with
  | true =>
    cases hd : decode s.cmdreg with
    | ok i => exact .inl ⟨i, by simp [Move.outcome]⟩
    | error e => exact .inr (.inl ⟨e, by simp [Move.outcome]⟩)
  | false =>
    cases hc : s.canDeliver with
    | true => exact .inr (.inr (.inl (by simp [Move.outcome])))
    | false => exact .inr (.inr (.inr (by simp [Move.outcome])))

theorem blockMove_next (s : State) : ∃ t, (blockMove s).outcome = .next t := by
  rcases blockMove_cases s with ⟨i, -, -, h⟩ | ⟨e, -, -, h⟩ | ⟨-, -, h⟩ | ⟨-, -, h⟩
  · exact (exec_next i s).imp fun t ht => h.trans ht
  all_goals exact ⟨_, h⟩

/-- The block moves on its own when the host has no event left. -/
theorem step_nil {s : State} (h : s.host = []) : step s = (blockMove s).outcome := by rw [step_eq, nextMove, h]

theorem step_pass {s : State} {rest : List HostEvent} (h : s.host = .pass :: rest) :
    step s = (blockMove { s with host := rest }).outcome := by rw [step_eq, nextMove, h]

theorem step_read {s : State} {offset : Nat} {rest : List HostEvent} (h : s.host = .read 32 offset :: rest)
    (ha : offset % 4 = 0) : step s = .next (hostRead offset { s with host := rest }) := by
  rw [step_eq, nextMove, h]
  simp [accessOk, ha, Move.outcome]

theorem step_write {s : State} {offset : Nat} {v : Word} {rest : List HostEvent} (h : s.host = .write 32 offset v :: rest)
    (ha : offset % 4 = 0) (hb : writeHeld offset s = false) :
    step s = .next (hostWrite offset v { s with host := rest }) := by
  rw [step_eq, nextMove, h]
  simp [accessOk, ha, hb, Move.outcome]

theorem step_held {s : State} {v : Word} {rest : List HostEvent} (h : s.host = .write 32 0x00 v :: rest)
    (hb : s.busy = true) : step s = (blockMove s).outcome := by
  rw [step_eq, nextMove, h]
  simp [accessOk, writeHeld, hb]

theorem step_reset {s : State} {rest : List HostEvent} (h : s.host = .reset :: rest) :
    step s = .next (hostReset { s with host := rest }) := by rw [step_eq, nextMove, h]; rfl

theorem step_sync {s : State} {gaps : List Nat} {rest : List HostEvent} (h : s.host = .sync gaps :: rest) :
    step s = .next (syncPass gaps rest s) := by rw [step_eq, nextMove, h]; rfl

theorem step_wait {s : State} {gaps : List Nat} {rest : List HostEvent} (h : s.host = .wait gaps :: rest) :
    step s = .next (waitPass gaps rest s) := by rw [step_eq, nextMove, h]; rfl

/-- Everything a step that answers a next state can be: a move of the block (the host unchanged or one `pass` shorter), a bus
access, reset, or one pass of a host loop. -/
theorem step_cases {s t : State} (h : step s = .next t) :
    (∃ host, (blockMove { s with host := host }).outcome = .next t) ∨
    (∃ offset rest, t = hostRead offset { s with host := rest }) ∨
    (∃ offset v rest, writeHeld offset s = false ∧ t = hostWrite offset v { s with host := rest }) ∨
    (∃ rest, s.host = .reset :: rest ∧ t = hostReset { s with host := rest }) ∨
    (∃ host, t = { hostRead 0x04 s with host := host }) := by
  rw [step_eq] at h
  unfold nextMove at h
  split at h
  · exact .inl ⟨s.host, h⟩
  · exact .inl ⟨_, h⟩
  · split at h
    · simp only [Move.outcome, Host.Outcome.next.injEq] at h
      exact .inr (.inl ⟨_, _, h.symm⟩)
    · simp [Move.outcome] at h
  · split at h
    · split at h
      · exact .inl ⟨s.host, h⟩
      · rename_i hb
        simp only [Move.outcome, Host.Outcome.next.injEq] at h
        exact .inr (.inr (.inl ⟨_, _, _, by simpa using hb, h.symm⟩))
    · simp [Move.outcome] at h
  · rename_i rest hr
    simp only [Move.outcome, Host.Outcome.next.injEq] at h
    exact .inr (.inr (.inr (.inl ⟨rest, hr, h.symm⟩)))
  · simp [Move.outcome] at h
  · simp only [Move.outcome, Host.Outcome.next.injEq] at h
    exact .inr (.inr (.inr (.inr ⟨_, h.symm⟩)))
  · simp only [Move.outcome, Host.Outcome.next.injEq] at h
    exact .inr (.inr (.inr (.inr ⟨_, h.symm⟩)))

end Sys2Proof.Machine
end

