-- ==== Sys2Proof/Laws/HostProgram.lean ====
section
/-! SUPPORT. Where an operation ends, and what a read and CLR do to the reads of the operation under way. -/

namespace Sys2Proof.Machine

open Sys2Proof

/-- A STATUS word ends an operation when it shows BUSY = 0, OUTV = 0 and one of the three last phases. -/
theorem endsOperation_iff (v : Word) :
    endsOperation v = true ↔ v.getLsbD 0 = false ∧ v.getLsbD 3 = false ∧
      (v.extractLsb' 4 4 = Phase.eDone.code ∨ v.extractLsb' 4 4 = Phase.dDone.code ∨
        v.extractLsb' 4 4 = Phase.error.code) := by
  simp only [endsOperation, Bool.and_eq_true, Bool.or_eq_true, Bool.not_eq_true', beq_iff_eq]
  tauto

/-- `operationEnd` splits the reads at the first one that ends an operation. -/
theorem operationEnd_eq_some (reads before : List BusRead) (v : Word) :
    operationEnd reads = some (before, v) ↔ ∃ last later, reads = before ++ last :: later ∧ last.value = v ∧
      (last.offset == 0x04 && endsOperation last.value) = true ∧
      ∀ e ∈ before, (e.offset == 0x04 && endsOperation e.value) = false := by
  induction reads generalizing before with
  | nil => simp [operationEnd]
  | cons r reads ih =>
    simp only [operationEnd]
    cases hr : (r.offset == 0x04 && endsOperation r.value) with
    | true =>
      rw [if_pos rfl]
      constructor
      · intro h
        simp only [Option.some.injEq, Prod.mk.injEq] at h
        obtain ⟨rfl, rfl⟩ := h
        exact ⟨r, reads, rfl, rfl, hr, by simp⟩
      · rintro ⟨last, later, h, rfl, -, hb⟩
        cases before with
        | nil => simp at h; simp [h.1]
        | cons e before =>
          simp at h
          rw [h.1, hb e (by simp)] at hr
          exact absurd hr (by simp)
    | false =>
      rw [if_neg (by simp)]
      constructor
      · intro h
        split at h
        · simp at h
        · rename_i e he
          simp only [Option.some.injEq, Prod.mk.injEq] at h
          obtain ⟨rfl, rfl⟩ := h
          obtain ⟨last, later, h1, h2, h3, h4⟩ := (ih e.1).1 he
          exact ⟨last, later, by simp [h1], h2, h3, List.forall_mem_cons.2 ⟨hr, h4⟩⟩
      · rintro ⟨last, later, h, rfl, hl, hb⟩
        cases before with
        | nil =>
          simp at h
          rw [h.1, hl] at hr
          exact absurd hr (by simp)
        | cons e before =>
          simp at h
          obtain ⟨rfl, rfl⟩ := h
          rw [(ih before).2 ⟨last, later, rfl, rfl, hl, fun e he => hb e (by simp [he])⟩]

@[simp] theorem hostRead_opened (offset : Nat) (s : State) : (hostRead offset s).opened = s.opened := by
  simp only [hostRead, readWindow, readField, readOutdata]
  split <;> (try rfl) <;> split <;> rfl

/-- A read joins the reads of the operation under way. -/
theorem hostRead_operationReads (offset : Nat) {s : State} (h : s.opened ≤ s.reads.length) :
    (hostRead offset s).operationReads = s.operationReads ++ [{ offset := offset, value := (readWindow offset s).1 }] := by
  rw [State.operationReads, hostRead_opened]
  exact List.drop_append_of_le_length h

/-- The reset elements open an operation without reads. -/
@[simp] theorem resetElements_operationReads (s : State) : (resetElements s).operationReads = [] := by
  simp [State.operationReads]

/-- No command but CLR touches the reads of the operation under way. -/
theorem exec_operationReads {i : Instr} {s t : State} (h : exec i s = .next t) (hi : i ≠ .clr) :
    t.operationReads = s.operationReads := by
  rw [exec_eq_execute] at h
  obtain ⟨-, -, rfl⟩ | ⟨-, rfl⟩ | ⟨-, rfl⟩ := execute_cases h
  · rfl
  · rfl
  · have he := perform_emits i s hi
    simp only [State.operationReads, retire_opened, retire_reads, he.opened, he.reads]

end Sys2Proof.Machine
end

