-- ==== Sys2Proof/Laws/Invariant.lean ====
section
/-! SUPPORT. The functions the invariant is stated with: what they depend on, sums over the histogram, and the invariant of
states that agree on the fields it reads. -/

namespace Sys2Proof.Machine

open Sys2Proof

theorem mem_allBytes (b : Byte) : b ∈ allBytes := by
  simp only [allBytes, List.mem_map, List.mem_range]
  exact ⟨b.toNat, b.isLt, by simp⟩

theorem nodup_allBytes : allBytes.Nodup := by decide +kernel

theorem histAt_congr {s t : State} (h : t.hist = s.hist) : t.histAt = s.histAt := by
  funext b
  unfold State.histAt
  simp only [h]

theorem symbols_congr {s t : State} (h : t.symbuf = s.symbuf) (h' : t.total = s.total) : t.symbols = s.symbols := by
  unfold State.symbols
  rw [h, h']

theorem counted_congr {s t : State} (h : t.hist = s.hist) : t.counted = s.counted := by
  unfold State.counted
  rw [histAt_congr h]

/-- The delimiter is never counted, so at most 255 symbols are. -/
theorem counted_length_le {s : State} (h : s.histAt Config.delimiter = 0) : s.counted.length ≤ 255 := by
  have hs : s.counted.Sublist (allBytes.filter (· != Config.delimiter)) := by
    refine List.monotone_filter_right _ fun b hb => ?_
    simp at hb ⊢
    rintro rfl
    exact hb h
  have := hs.length_le
  have : (allBytes.filter (· != Config.delimiter)).length = 255 := by decide +kernel
  omega

/-- One count more at one symbol is one more in the sum. -/
theorem sum_update (f g : Byte → Nat) (b : Byte) (h1 : g b = f b + 1) (h2 : ∀ c, c ≠ b → g c = f c) (l : List Byte)
    (hl : l.Nodup) : (l.map g).sum = (l.map f).sum + if b ∈ l then 1 else 0 := by
  induction l with
  | nil => simp
  | cons c l ih =>
    simp at hl
    simp [ih hl.2]
    by_cases hc : c = b
    · subst hc
      simp [hl.1, h1]
      omega
    · have : b ≠ c := fun h => hc h.symm
      simp [h2 c hc, this]
      split <;> omega

theorem le_sum (f : Byte → Nat) (b : Byte) : f b ≤ (allBytes.map f).sum :=
  List.single_le_sum (by simp) _ (List.mem_map.2 ⟨b, mem_allBytes b, rfl⟩)

/-- BuildTree counts the leaves it makes. -/
theorem buildTree_size (s : State) : (buildTree s.histAt s.arena).size = s.counted.length := by
  unfold buildTree leavesOf State.counted
  simp only [List.length_map]
  split
  · rename_i h; exact h.symm
  · rfl

/-- The invariant of a state whose counts, buffers and parameters are those of a state that has it, once its sequencing fields
are right. -/
theorem Inv.of_buffers {s t : State} (h : Inv s) (hhist : t.hist = s.hist) (hsym : t.symbuf = s.symbuf)
    (htotal : t.total = s.total) (hclen : t.clen = s.clen) (hcbuf : t.cbuf = s.cbuf) (hparams : t.params = s.params)
    (hout : t.out.length ≤ s.params.outDepth) (hpending : t.pending = true → t.pendOut = [])
    (herr : t.err ≠ .none ↔ t.phase = .error) (hnf : t.err ≠ .notFound) (henc : t.phase.encoding = true → t.clen = 0)
    (hdec : t.phase.decoding = true → t.total = 0)
    (hbuilt : t.phase.treeBuilt = true → 1 ≤ t.tabn.toNat ∧ t.tabn.toNat = t.counted.length)
    (hidle : t.phase = .idle → t.total = 0)
    (hhdr : t.phase = .dHdr ∨ t.phase = .dDone → 1 ≤ t.tabn.toNat ∧ t.ppos.toNat < t.clen.toNat) : Inv t where
  err_iff_error := herr
  pending_alone := hpending
  total_eq_sum := by rw [histAt_congr hhist, htotal]; exact h.total_eq_sum
  hist_counts := by rw [histAt_congr hhist, symbols_congr hsym htotal]; exact h.hist_counts
  no_delimiter := by rw [histAt_congr hhist]; exact h.no_delimiter
  encoding_clen := henc
  decoding_total := hdec
  built_tabn := hbuilt
  params_wf := by rw [hparams]; exact h.params_wf
  idle_total := hidle
  total_le := by rw [htotal, hparams]; exact h.total_le
  clen_le := by rw [hclen, hparams]; exact h.clen_le
  out_le := by rw [hparams]; exact hout
  symbuf_wf := by rw [hsym]; exact h.symbuf_wf
  cbuf_wf := by rw [hcbuf]; exact h.cbuf_wf
  not_notFound := hnf
  header_loaded := hhdr

/-- The invariant of a state that agrees with one that has it on every field it reads, but for the FIFOs and PENDING. -/
theorem Inv.of_agree {s t : State} (h : Inv s) (herr : t.err = s.err) (hphase : t.phase = s.phase)
    (htotal : t.total = s.total) (hhist : t.hist = s.hist) (hsym : t.symbuf = s.symbuf) (hclen : t.clen = s.clen)
    (hcbuf : t.cbuf = s.cbuf) (htabn : t.tabn = s.tabn) (hppos : t.ppos = s.ppos) (hparams : t.params = s.params)
    (hout : t.out.length ≤ s.params.outDepth) (hpending : t.pending = true → t.pendOut = []) : Inv t := by
  refine h.of_buffers hhist hsym htotal hclen hcbuf hparams hout hpending ?_ ?_ ?_ ?_ ?_ ?_ ?_
  · rw [herr, hphase]; exact h.err_iff_error
  · rw [herr]; exact h.not_notFound
  · rw [hphase, hclen]; exact h.encoding_clen
  · rw [hphase, htotal]; exact h.decoding_total
  · rw [hphase, htabn, counted_congr hhist]; exact h.built_tabn
  · rw [hphase, htotal]; exact h.idle_total
  · rw [hphase, htabn, hppos, hclen]; exact h.header_loaded

/-- Raising an error keeps the invariant. -/
theorem Inv.raise {s : State} (h : Inv s) {e : ErrCode} (h1 : e ≠ .none) (h2 : e ≠ .notFound) :
    Inv (retire (Machine.raise e s)) :=
  h.of_buffers rfl rfl rfl rfl rfl rfl h.out_le (by simp) (by simp [h1]) (by simpa using h2) (by simp [Phase.encoding])
    (by simp [Phase.decoding]) (by simp [Phase.treeBuilt]) (by simp) (by simp)

/-- Ending an execute step keeps the invariant. -/
theorem Inv.retire {s : State} (h : Inv s) : Inv (Machine.retire s) :=
  h.of_agree rfl rfl rfl rfl rfl rfl rfl rfl rfl rfl h.out_le (by simp)

end Sys2Proof.Machine
end

