-- ==== Sys2Proof/Laws/Packer.lean ====
section
/-! SUPPORT. What the packer's shift-register loop emits. -/

namespace Sys2Proof.Machine

open Sys2Proof

/-- The bits of the bytes the loop emits: the register, the codes in order, and the padding. -/
theorem packLoop_bits (code : Byte → Bits) (symbols : List Byte) (acc : Bits) (h : acc.length < 8) :
    (packLoop code symbols acc).flatMap byteToBits =
      acc ++ symbols.flatMap code ++ zeroBits (padLength (acc ++ symbols.flatMap code).length) := by
  induction symbols generalizing acc with
  | nil =>
    simp only [packLoop]
    split
    · simp_all [padLength, zeroBits]
    · have : 0 < acc.length := by cases acc <;> simp_all
      simp only [List.flatMap_cons, List.flatMap_nil, List.append_nil]
      rw [byteToBits_bitsToByte _ (by simp [zeroBits]; omega)]
      simp [zeroBits, padLength]
      omega
  | cons b symbols ih =>
    simp only [packLoop, List.flatMap_append]
    rw [ih _ (by simp; omega), takeBytes_bits _ _ (by omega)]
    simp only [← List.append_assoc, List.take_append_drop, List.flatMap_cons]
    congr 2
    simp [padLength]
    omega

end Sys2Proof.Machine
end

