-- ==== Sys2Proof/Laws/PerInstr.lean ====
section
/-! SUPPORT. A fact about each command as syntax: its word's fields are well-formed, and the word decodes to the command. -/

namespace Sys2Proof.Laws.RoundTrip

open Sys2Proof

/-- The word of a command has well-formed fields and reads back as the command (spec/30_encoding.md R74, R75). -/
def Statement (i : Instr) : Prop := (fieldsOf (encode i)).wellFormed = true ∧ decode (encode i) = .ok i

theorem nop : Statement .nop := ⟨by decide, by decide⟩
theorem clr : Statement .clr := ⟨by decide, by decide⟩
theorem cnt (sym : Byte) : Statement (.cnt sym) := by
  simp [Statement, encode, decode, commandOf, Fields.wellFormed, Fields.opcodeAssigned, Fields.reservedZero,
    Fields.operandAllowed, plainOpcodes, operandOpcodes]
theorem rdhist (sym : Byte) : Statement (.rdhist sym) := by
  simp [Statement, encode, decode, commandOf, Fields.wellFormed, Fields.opcodeAssigned, Fields.reservedZero,
    Fields.operandAllowed, plainOpcodes, operandOpcodes]
theorem build : Statement .build := ⟨by decide, by decide⟩
theorem gen : Statement .gen := ⟨by decide, by decide⟩
theorem rdcode (sym : Byte) : Statement (.rdcode sym) := by
  simp [Statement, encode, decode, commandOf, Fields.wellFormed, Fields.opcodeAssigned, Fields.reservedZero,
    Fields.operandAllowed, plainOpcodes, operandOpcodes]
theorem hdr : Statement .hdr := ⟨by decide, by decide⟩
theorem pack : Statement .pack := ⟨by decide, by decide⟩
theorem enc : Statement .enc := ⟨by decide, by decide⟩
theorem din (byte : Byte) : Statement (.din byte) := by
  simp [Statement, encode, decode, commandOf, Fields.wellFormed, Fields.opcodeAssigned, Fields.reservedZero,
    Fields.operandAllowed, plainOpcodes, operandOpcodes]
theorem dhdr : Statement .dhdr := ⟨by decide, by decide⟩
theorem dpay : Statement .dpay := ⟨by decide, by decide⟩
theorem dec : Statement .dec := ⟨by decide, by decide⟩

end Sys2Proof.Laws.RoundTrip
end

