-- ==== Sys2Proof/Tests/Slice0.lean ====
section
/-! SUPPORT. Tests with expected values from spec/95_test_vectors.md (its vector names stand in the docstrings), and for each
statement with hypotheses a concrete state and operands that meet them all. -/

namespace Sys2Proof.Tests

open Sys2Proof Sys2Proof.Machine Sys2Proof.Claims

/-! ## Ill-formed words -/

theorem test_wellFormed_refuses_opcode : Fields.opcodeAssigned { opc := 0x02, imm8 := 0, rsv := 0 } = false := by decide
theorem test_wellFormed_refuses_reserved : Fields.reservedZero { opc := 0x00, imm8 := 0, rsv := 1 } = false := by decide
theorem test_wellFormed_refuses_operand : Fields.operandAllowed { opc := 0x20, imm8 := 1, rsv := 0 } = false := by decide
theorem test_decode_names_each_check :
    decode 0x00000002 = .error .unassignedOpcode ∧ decode 0x00010000 = .error .reservedBits ∧
    decode 0x00000100 = .error .operandNotZero := by decide

/-! ## Decoding: each command's word, RSV, IMM8 and OPC written out (30_encoding.md R70, R73) -/

theorem test_decode_nop : decode (0b0000000000000000#16 ++ 0b00000000#8 ++ 0b00000000#8) = .ok .nop := by decide
theorem test_decode_clr : decode (0b0000000000000000#16 ++ 0b00000000#8 ++ 0b00000001#8) = .ok .clr := by decide
theorem test_decode_cnt : decode (0b0000000000000000#16 ++ 0b01100001#8 ++ 0b00010000#8) = .ok (.cnt 0x61) := by decide
theorem test_decode_rdhist : decode (0b0000000000000000#16 ++ 0b11111111#8 ++ 0b00010001#8) = .ok (.rdhist 0xFF) := by decide
theorem test_decode_build : decode (0b0000000000000000#16 ++ 0b00000000#8 ++ 0b00100000#8) = .ok .build := by decide
theorem test_decode_gen : decode (0b0000000000000000#16 ++ 0b00000000#8 ++ 0b00100001#8) = .ok .gen := by decide
theorem test_decode_rdcode : decode (0b0000000000000000#16 ++ 0b01100100#8 ++ 0b00100010#8) = .ok (.rdcode 0x64) := by decide
theorem test_decode_hdr : decode (0b0000000000000000#16 ++ 0b00000000#8 ++ 0b00110000#8) = .ok .hdr := by decide
theorem test_decode_pack : decode (0b0000000000000000#16 ++ 0b00000000#8 ++ 0b00110001#8) = .ok .pack := by decide
theorem test_decode_enc : decode (0b0000000000000000#16 ++ 0b00000000#8 ++ 0b00111111#8) = .ok .enc := by decide
theorem test_decode_din : decode (0b0000000000000000#16 ++ 0b01111100#8 ++ 0b01000000#8) = .ok (.din 0x7C) := by decide
theorem test_decode_dhdr : decode (0b0000000000000000#16 ++ 0b00000000#8 ++ 0b01010000#8) = .ok .dhdr := by decide
theorem test_decode_dpay : decode (0b0000000000000000#16 ++ 0b00000000#8 ++ 0b01010001#8) = .ok .dpay := by decide
theorem test_decode_dec : decode (0b0000000000000000#16 ++ 0b00000000#8 ++ 0b01011111#8) = .ok .dec := by decide

/-- The words of 95_test_vectors.md 2.1, encoded and read as table rows. -/
theorem test_encode_words :
    encode (.cnt 0x61) = 0x00006110 ∧ encode (.rdhist 0xFF) = 0x0000FF11 ∧ encode (.rdcode 0x64) = 0x00006422 ∧
    encode (.din 0x7C) = 0x00007C40 ∧ encode .enc = 0x0000003F ∧ encode .dec = 0x0000005F ∧
    decodeTableWord 32 0x00006110 = some (.cnt 0x61) ∧ decodeTableWord 32 0xFFFFFFFF = none := by decide

/-! ## Small states -/

/-- A device with small buffers. -/
def dev : Params := { maxLen := 16, maxClen := 32, outDepth := 2 }

/-- A device right after reset. -/
def start : State := State.resetWith dev

/-- The state after counting a text that holds no 0x00. -/
def counting (text : List Byte) : State :=
  { start with
    hist := text.foldl (fun h b => h.setIfInBounds b.toNat (BitVec.ofNat 32 (text.count b))) start.hist
    symbuf := (List.range text.length).zip text
    total := BitVec.ofNat 32 text.length
    phase := .eCount }

/-- The state after loading container bytes. -/
def loading (bytes : List Byte) : State :=
  { start with
    cbuf := ((List.range bytes.length).zip bytes).filter fun c => c.2 != Memory.fill
    clen := BitVec.ofNat 32 bytes.length
    phase := .dLoad }

/-- The state a command leaves. -/
def after (i : Instr) (s : State) : State :=
  match exec i s with
  | .next t => t
  | .fault _ => s
  | .refused _ => s

theorem exec_eq_after (i : Instr) (s : State) : exec i s = .next (after i s) := by
  rw [after, exec_eq_execute]; rfl

/-- "abcc" (vector G7). -/
def abcc : State := counting [0x61, 0x62, 0x63, 0x63]

/-- "aaa" (vector G2). -/
def aaa : State := counting [0x61, 0x61, 0x61]

/-- The container of "aaa" (vector E2). -/
def aaaContainer : List Byte := [0x01, 0x61, 0x30, 0x7C, 0x05, 0x00]

/-- The tree of "abcc" (vector T5). -/
def abccBuilt : State :=
  { abcc with
    arena := ((((start.arena.setIfInBounds 0 (leafNode 0x61 1)).setIfInBounds 1 (leafNode 0x62 1)).setIfInBounds 2
      (leafNode 0x63 2)).setIfInBounds 3
        { kind := .internal, weight := 2, rep := 0x61, sym := 0, left := 0, right := 1 }).setIfInBounds 4
        { kind := .internal, weight := 4, rep := 0x61, sym := 0, left := 3, right := 2 }
    root := 4, tabn := 3, phase := .eBuilt }

/-- The code table of "abcc" (vector G7). -/
def abccGen : State :=
  { abccBuilt with
    ct := ((start.ct.setIfInBounds 0x61 (CtEntry.ofBits [false, false])).setIfInBounds 0x62
      (CtEntry.ofBits [false, true])).setIfInBounds 0x63 (CtEntry.ofBits [true])
    order := ((start.order.setIfInBounds 0 0x61).setIfInBounds 1 0x62).setIfInBounds 2 0x63
    bitlen := 6, pad := 2, phase := .eGen }

/-- The container of "aaa" parsed (vector D24). -/
def aaaParsed : State :=
  { loading aaaContainer with
    dt := start.dt.setIfInBounds 0 (DtEntry.ofPair 0x61 [false]), tabn := 1, ppos := 4, pad := 5, phase := .dHdr }

/-! ## One step per command -/

/-- K1. -/
theorem test_nop : (after .nop { start with err := .capacity, phase := .error }).statusWord = 0x6F2 := by decide +kernel

/-- K13, K15. -/
theorem test_clr :
    (after .clr (after .build start)).statusWord = 0 ∧ (after .clr abcc).total = 0 ∧ (after .clr abcc).histAt 0x63 = 0 := by
  decide +kernel

/-- F1. -/
theorem test_cnt : (after (.cnt 0x61) start).histAt 0x61 = 1 ∧ (after (.cnt 0x61) start).symbuf.read 0 = 0x61 ∧
    (after (.cnt 0x61) start).statusWord = 0x010 := by decide +kernel

/-- A device whose SYMBUF of one byte is full. -/
def fullOne : State := { counting [0x61] with params := { dev with maxLen := 1 } }

/-- F6: INVALID_SYMBOL before CAPACITY. -/
theorem test_cnt_delimiter : (after (.cnt 0x7C) fullOne).statusWord = 0x5F2 := by decide +kernel

/-- F10: big-endian. -/
theorem test_rdhist :
    (after (.rdhist 0x7A) { start with hist := Vector.replicate 256 256, phase := .eCount }).pendOut = [0x00, 0x00, 0x01, 0x00] := by
  decide +kernel

/-- T5: node 3 (2,'a') beats leaf c (2,'c') on rep. -/
theorem test_build : (after .build abcc).root = 4 ∧ (after .build abcc).tabn = 3 ∧
    nodeAt (after .build abcc).arena 3 = nodeAt abccBuilt.arena 3 ∧
    nodeAt (after .build abcc).arena 4 = nodeAt abccBuilt.arena 4 := by decide +kernel

/-- T2: the synthetic root. -/
theorem test_build_sole : (after .build aaa).root = 1 ∧ nodeAt (after .build aaa).arena 1 =
    { kind := .internal, weight := 3, rep := 0x61, sym := 0, left := 0, right := 0x1FF } := by decide +kernel

/-- G7. -/
theorem test_gen : (after .gen abccBuilt).orderList = [0x61, 0x62, 0x63] ∧
    ((after .gen abccBuilt).ctAt 0x61).bits = [false, false] ∧ ((after .gen abccBuilt).ctAt 0x62).bits = [false, true] ∧
    ((after .gen abccBuilt).ctAt 0x63).bits = [true] ∧ (after .gen abccBuilt).infoWord = 0x0203 := by decide +kernel

/-- RC10, RC4. -/
theorem test_rdcode :
    (after (.rdcode 0x63) abccGen).pendOut = [0x01, 0x80] ∧ (after (.rdcode 0x65) abccGen).pendOut = [0x00] := by
  decide +kernel

/-- E9's header. -/
theorem test_hdr : (after .hdr abccGen).pendOut =
    [0x03, 0x61, 0x62, 0x63, 0x30, 0x30, 0x7C, 0x30, 0x31, 0x7C, 0x31, 0x7C] := by decide +kernel

/-- E9's payload. -/
theorem test_pack : (after .pack { abccGen with phase := .eHdr }).pendOut = [0x02, 0x1C] := by decide +kernel

/-- E2. -/
theorem test_enc : (after .enc aaa).pendOut = aaaContainer := by decide +kernel

/-- S6. -/
theorem test_enc_empty : (after .enc start).statusWord = 0x2F2 := by decide +kernel

/-- K9. -/
theorem test_din : (after (.din 0x01) start).clen = 1 ∧ (after (.din 0x01) start).cbuf.read 0 = 0x01 := by decide +kernel

/-- D24's header. -/
theorem test_dhdr : (after .dhdr (loading aaaContainer)).statusWord = 0x090 ∧
    (after .dhdr (loading aaaContainer)).ppos = 4 ∧ (after .dhdr (loading aaaContainer)).pad = 5 ∧
    (after .dhdr (loading aaaContainer)).dtList = [(0x61, [false])] := by decide +kernel

/-- D9: the delimiter as a key. -/
theorem test_dhdr_delimiter : (after .dhdr (loading [0x01, 0x7C, 0x30, 0x7C, 0x00, 0x00])).statusWord = 0x3F2 := by
  decide +kernel

/-- S5's payload. -/
theorem test_dpay : (after .dpay aaaParsed).pendOut = [0x61, 0x61, 0x61] := by decide +kernel

/-- D26: an incomplete code set. -/
theorem test_dec : (after .dec (loading [0x02, 0x61, 0x62, 0x30, 0x7C, 0x31, 0x30, 0x7C, 0x06, 0x80])).pendOut = [0x62] := by
  decide +kernel

/-- D21: the symbols matched before the error stay. -/
theorem test_dec_trailing :
    (after .dec (loading [0x02, 0x61, 0x62, 0x30, 0x7C, 0x31, 0x30, 0x7C, 0x00, 0x01])).pendOut = List.replicate 7 0x61 ∧
    (after .dec (loading [0x02, 0x61, 0x62, 0x30, 0x7C, 0x31, 0x30, 0x7C, 0x00, 0x01])).err = .corruptedPayload := by
  decide +kernel

/-! ## The step -/

/-- The state a step leaves. -/
def stepped (s : State) : State :=
  match step s with
  | .next t => t
  | .fault _ => s
  | .refused _ => s

/-- F1, K2, K5: a placed word runs at the very next step. -/
theorem test_step_runs_placed_word :
    (stepped (State.reset.withFetchWord 32 0x00006110)).statusWord = 0x010 ∧
    (stepped (State.reset.withFetchWord 32 0x00010000)).statusWord = 0x7F2 ∧
    (stepped (State.reset.withFetchWord 32 0x00000021)).statusWord = 0x8F2 := by decide +kernel

/-- B9, B10, B12, B13. -/
theorem test_pack_functions :
    packBits [false, false, false, false, true, false, true, false, true, false, true, true, true, true, true, true, true, true,
      false] = (5, [0x0A, 0xBF, 0xC0]) ∧
    unpackBits [0xA0] 5 = some [true, false, true] ∧ unpackBits [] 3 = none ∧ unpackBits [0x00] 8 = none := by decide +kernel

/-- A host that has made these reads, the first one before its operation's CLR. -/
def reading (reads : List BusRead) : State := { start with reads := reads, opened := 1 }

/-- R274 on S6: a byte read before the CLR, a busy STATUS read, the final one (0x2F2) and a later one. -/
def endedReads : State :=
  reading [{ offset := 0x08, value := 0x161 }, { offset := 0x04, value := 0x0F1 }, { offset := 0x04, value := 0x2F2 },
    { offset := 0x04, value := 0x0A4 }]

/-- R274: an operation that failed, one that succeeded (STATUS 0x0AC with a byte in OUT, then 0x0A4), one just opened. -/
theorem test_operationResult :
    endedReads.operationResult = some { succeeded := false, output := [] } ∧
    (reading [{ offset := 0x08, value := 0x162 }, { offset := 0x04, value := 0x0AC }, { offset := 0x08, value := 0x161 },
      { offset := 0x04, value := 0x0A4 }]).operationResult = some { succeeded := true, output := [0x61] } ∧
    (after .clr endedReads).operationResult = none := by decide

/-! ## Witnesses: for each statement with hypotheses, values that meet them

The encoding statements and those over every state have no hypothesis to meet beyond the ones named here. -/

/-- The spec's invariants hold after counting "aaa". -/
theorem aaa_specInv : SpecInv aaa where
  err_iff_error := by decide
  pending_alone := by decide
  total_eq_sum := by decide +kernel
  hist_counts := by decide +kernel
  no_delimiter := by decide +kernel
  encoding_clen := by decide
  decoding_total := by decide
  built_tabn := by decide

/-- The spec's invariants hold after counting "abcc". -/
theorem abcc_specInv : SpecInv abcc where
  err_iff_error := by decide
  pending_alone := by decide
  total_eq_sum := by decide +kernel
  hist_counts := by decide +kernel
  no_delimiter := by decide +kernel
  encoding_clen := by decide
  decoding_total := by decide
  built_tabn := by decide

/-- A device with NOP pending. -/
def pendingNop : State := { start with pending := true }

/-- A device with an illegal word pending. -/
def pendingIllegal : State := { start with cmdreg := 0x00010000, pending := true }

/-- A device in ERROR. -/
def failed : State := { start with err := .sequence, phase := .error }

theorem witness_SpecWordsDecode : (0x00006110, some (.cnt 0x61)) ∈ specWords ∧ (0x00010000, none) ∈ specWords := by decide

/-- In each situation in which the block moves: no event left, a pass, a held write. -/
theorem witness_PendingCommandExecutes :
    pendingNop.pending = true ∧ decode pendingNop.cmdreg = .ok .nop ∧ pendingNop.host = [] ∧
    { pendingNop with host := [.pass] }.host = .pass :: [] ∧
    { pendingNop with host := [.write 32 0x00 5] }.host = .write 32 0x00 5 :: [] := by decide

/-- A word with OPC 0x00 other than NOP's. -/
theorem witness_NopHasNoEffect : (0x00000100 : Word).extractLsb' 0 8 = 0 ∧ (0x00000100 : Word) ≠ 0 := by decide

theorem witness_IllegalWordRaisesIllegalCmd :
    pendingIllegal.pending = true ∧ decode pendingIllegal.cmdreg = .error .reservedBits ∧ pendingIllegal.host = [] ∧
    pendingIllegal.phase ≠ .error ∧ { pendingIllegal with phase := .error }.phase = .error := by decide

theorem witness_SequenceExactlyOutsideLegalPhases :
    start.phase ≠ .error ∧ start.phase ∉ legalPhases .gen ∧ failed.phase ∈ legalPhases .nop ∧
    exec .nop failed = .next (after .nop failed) ∧ (after .nop failed).err = .sequence :=
  ⟨by decide, by decide, by decide, exec_eq_after _ _, by decide⟩

theorem witness_ErrorGateIgnoresCommands :
    failed.phase = .error ∧ Instr.build ≠ .nop ∧ Instr.build ≠ .clr ∧
    { pendingIllegal with phase := .error }.pending = true ∧ { pendingIllegal with phase := .error }.host = [] ∧
    decode { pendingIllegal with phase := .error }.cmdreg = .error .reservedBits := by decide

/-- Once per way out: nothing to do, CLR pending, reset asserted. -/
theorem witness_FirstErrorIsKept :
    failed.phase = .error ∧ step failed = .next failed ∧
    (∃ t, step { failed with cmdreg := 1, pending := true } = .next t) ∧ decode 1 = .ok .clr ∧
    ∃ t, step { failed with host := [.reset] } = .next t :=
  ⟨rfl, rfl, ⟨_, exec_eq_after .clr _⟩, by decide, ⟨_, rfl⟩⟩

theorem witness_FailingCommandKeepsState :
    start.phase ≠ .error ∧ exec (.cnt 0x7C) start = .next (after (.cnt 0x7C) start) ∧
    (after (.cnt 0x7C) start).phase = .error ∧ exec .dec start = .next (after .dec start) ∧
    (after .dec start).phase = .error ∧ (after .dec start).err = .corruptedHeader :=
  ⟨by decide, exec_eq_after _ _, by decide, exec_eq_after _ _, by decide +kernel, by decide +kernel⟩

/-- The delimiter, a full SYMBUF, room left: before the first symbol and before the last that fits. -/
theorem witness_CntCountsOneSymbol :
    start.phase = .idle ∧ fullOne.phase = .eCount ∧ (0x7C : Byte) = 0x7C ∧ fullOne.total.toNat = fullOne.params.maxLen ∧
    (0x7B : Byte) ≠ 0x7C ∧ start.total.toNat ≠ start.params.maxLen ∧ Memory.wf start.symbuf ∧
    (1 : Nat) ≠ start.total.toNat := by decide

theorem witness_RdhistEmitsBigEndianCount :
    start.phase.encoding = true ∧ { start with phase := .eDone }.phase.encoding = true ∧ SpecInv aaa ∧
    aaa.phase.encoding = true := ⟨by decide, by decide, aaa_specInv, by decide⟩

/-- From reset and from CLR: the empty text and the longest the buffer holds. -/
theorem witness_CountingComputesFrequencies :
    start = State.resetWith dev ∧ exec .clr aaa = .next (after .clr aaa) ∧ (after .clr aaa).params = dev ∧ dev.wf ∧ ([] : List Byte).length ≤ dev.maxLen ∧ (List.replicate 16 (0x61 : Byte)).length ≤ dev.maxLen ∧
    (0x7C : Byte) ∉ List.replicate 16 (0x61 : Byte) := ⟨rfl, exec_eq_after _ _, rfl, by decide⟩

theorem witness_BuildCompletes :
    start.phase = .idle ∧ start.total = 0 ∧ aaa.phase = .eCount ∧ aaa.total ≠ 0 := by decide

theorem aaa_counted : aaa.counted = [0x61] := by decide +kernel
theorem abcc_counted : abcc.counted = [0x61, 0x62, 0x63] := by decide +kernel

/-- One symbol and three: the first leaf, the sole root, the first merged record. -/
theorem witness_BuildMergesTheSmallestKeys :
    (SpecInv aaa ∧ exec .build aaa = .next (after .build aaa) ∧ (after .build aaa).phase = .eBuilt ∧
      aaa.counted[0]? = some 0x61 ∧ aaa.counted.length = 1) ∧
    SpecInv abcc ∧ exec .build abcc = .next (after .build abcc) ∧ (after .build abcc).phase = .eBuilt ∧
      abcc.counted[2]? = some 0x63 ∧ 2 ≤ abcc.counted.length ∧ abcc.counted.length ≤ 3 ∧ 3 ≤ 2 * abcc.counted.length - 2 :=
  ⟨⟨aaa_specInv, exec_eq_after _ _, by decide, by simp [aaa_counted], by simp [aaa_counted]⟩, abcc_specInv, exec_eq_after _ _,
    by decide, by simp [abcc_counted], by simp [abcc_counted], by simp [abcc_counted], by simp [abcc_counted]⟩

theorem witness_BuildDependsOnHistAlone :
    abcc.hist = { abcc with symbuf := [] }.hist ∧ SpecInv abcc ∧ exec .build abcc = .next (after .build abcc) ∧
    exec .build { abcc with symbuf := [] } = .next (after .build { abcc with symbuf := [] }) ∧
    (after .build abcc).phase = .eBuilt ∧ (after .build { abcc with symbuf := [] }).phase = .eBuilt :=
  ⟨rfl, abcc_specInv, exec_eq_after _ _, exec_eq_after _ _, by decide, by decide⟩

theorem witness_GenCompletes : abccBuilt.phase = .eBuilt := rfl

/-- BUILD and GEN of a state, as a run of two commands. -/
theorem run_build_gen (s : State) : runCommands [.build, .gen] s = some (after .gen (after .build s)) := by
  simp [runCommands, exec_eq_after]

/-- The hypotheses of the statements about a finished code table: CodesFollowTheTree, EveryCountedSymbolHasACode,
CodesArePrefixFree, CodeLengthsAreBounded, KraftSumIsOne, OrderIsLexicographic; two symbols have a code and TABN is 3. -/
theorem witness_code_table :
    SpecInv abcc ∧ runCommands [.build, .gen] abcc = some (after .gen (after .build abcc)) ∧
    (after .gen (after .build abcc)).phase = .eGen ∧
    ((after .gen (after .build abcc)).ctAt 0x61).valid = true ∧ ((after .gen (after .build abcc)).ctAt 0x63).valid = true ∧
    (0x61 : Byte) ≠ 0x63 ∧ 2 ≤ (after .gen (after .build abcc)).tabn.toNat :=
  ⟨abcc_specInv, run_build_gen _, by decide, by decide +kernel⟩

/-- The same for one symbol. -/
theorem witness_code_table_sole :
    SpecInv aaa ∧ runCommands [.build, .gen] aaa = some (after .gen (after .build aaa)) ∧
    (after .gen (after .build aaa)).phase = .eGen ∧ (after .gen (after .build aaa)).tabn.toNat = 1 ∧
    ((after .gen (after .build aaa)).ctAt 0x61).valid = true :=
  ⟨aaa_specInv, run_build_gen _, by decide, by decide +kernel⟩

theorem witness_RdcodeEmitsLengthAndCode :
    abccGen.phase = .eGen ∧ (abccGen.ctAt 0x65).valid = false ∧ (abccGen.ctAt 0x63).valid = true := by decide +kernel

/-- No bit, and as many as the field holds. -/
theorem witness_CodeFieldHoldsTheCode :
    ([] : Bits).length ≤ 254 ∧ 253 < 254 - ([] : Bits).length ∧ (List.replicate 254 true).length ≤ 254 ∧
    253 < (List.replicate 254 true).length := by decide +kernel

theorem witness_PackAndUnpackRoundTrip : 1 ≤ ([0xA0] : List Byte).length ∧ 7 ≤ 7 ∧ 0 ≤ 7 := by decide

theorem witness_PackEmitsThePaddedStream : { abccGen with phase := .eHdr }.phase = .eHdr := rfl

theorem witness_HdrEmitsTheHeader : abccGen.phase = .eGen := rfl

theorem witness_EncIsTheFourCommands :
    start.phase = .idle ∧ start.total = 0 ∧ aaa.phase = .eCount ∧ aaa.total ≠ 0 := by decide

theorem witness_ContainerLength :
    SpecInv aaa ∧ exec .enc aaa = .next (after .enc aaa) ∧ (after .enc aaa).phase = .eDone :=
  ⟨aaa_specInv, exec_eq_after _ _, by decide +kernel⟩

/-- A full CBUF, and room for one byte more. -/
theorem witness_DinLoadsOneByte :
    { start with clen := 32, phase := .dLoad }.phase = .dLoad ∧
    { start with clen := 32 }.clen.toNat = start.params.maxClen ∧ start.phase = .idle ∧
    { start with clen := 31 }.clen.toNat ≠ start.params.maxClen ∧ Memory.wf start.cbuf ∧ (0 : Nat) ≠ 31 := by decide

/-- "aaa"'s container is a header followed by the padding-length byte and one payload byte. -/
theorem aaaContainer_isHeader : IsHeader aaaContainer [0x61] [[false]] [0x05, 0x00] where
  layout := by decide
  size := by decide
  paired := by decide
  no_delimiter := by decide
  distinct := by decide
  lengths := by decide
  prefix_free := by simp
  padding_byte := by decide

/-- A header at its bounds: a code of 255 bits, one byte after the header. -/
theorem longest_isHeader :
    IsHeader (0x01 :: 0x61 :: (entryBytes (List.replicate 255 true) ++ [0x00])) [0x61] [List.replicate 255 true] [0x00] where
  layout := by decide +kernel
  size := by decide
  paired := by decide
  no_delimiter := by decide
  distinct := by decide
  lengths := by decide +kernel
  prefix_free := List.pairwise_singleton _ _
  padding_byte := by decide

theorem witness_DhdrAcceptsExactlyTheHeaders :
    (loading aaaContainer).phase = .dLoad ∧ IsHeader (loading aaaContainer).container [0x61] [[false]] [0x05, 0x00] ∧
    start.phase = .idle ∧ ¬ ∃ keys codes rest, IsHeader start.container keys codes rest :=
  ⟨rfl, by rw [show (loading aaaContainer).container = aaaContainer by decide]; exact aaaContainer_isHeader, rfl,
    fun ⟨_, _, _, h⟩ => absurd h.layout (by rw [show start.container = [] by decide]; simp)⟩

/-- P = 8; no payload byte; the shortest payload with P = 7; "aaa"'s five padding bits leave its three codes. -/
theorem witness_DpayDecodesThePayload :
    aaaParsed.phase = .dHdr ∧ { aaaParsed with cbuf := [(4, 8)] }.phase = .dHdr ∧
    7 < (Memory.read [(4, 8)] aaaParsed.ppos.toNat).toNat ∧
    { aaaParsed with clen := 5 }.clen.toNat ≤ aaaParsed.ppos.toNat + 1 ∧
    (Memory.read [(4, 7)] aaaParsed.ppos.toNat).toNat ≤ 7 ∧ aaaParsed.ppos.toNat + 1 < aaaParsed.clen.toNat ∧
    (aaaParsed.dtList.map Prod.snd).Pairwise (fun a b => ¬ a <+: b ∧ ¬ b <+: a) ∧
    (∀ e ∈ List.replicate 3 ((0x61 : Byte), [false]), e ∈ aaaParsed.dtList ∧ e.2 ≠ []) ∧
    logicalBits aaaParsed 5 = (List.replicate 3 ((0x61 : Byte), [false])).flatMap Prod.snd := by decide +kernel

theorem witness_DecIsTheTwoCommands : start.phase = .idle ∧ (loading aaaContainer).phase = .dLoad := by decide

theorem witness_EncodeThenDecodeReturnsTheText :
    dev.wf ∧ 1 ≤ ([0x61] : List Byte).length ∧ ([0x61] : List Byte).length ≤ dev.maxLen ∧ (0x7C : Byte) ∉ ([0x61] : List Byte) ∧
    ∃ e, runCommands [.cnt 0x61, .enc] (State.resetWith dev) = some e ∧ e.pendOut.length ≤ dev.maxClen :=
  ⟨by decide, by decide, by decide, by decide, after .enc (after (.cnt 0x61) start), by simp [runCommands, exec_eq_after, start],
    by decide +kernel⟩

/-- A device whose host does these things next. -/
def hosted (host : List HostEvent) : State := { start with host := host }

theorem witness_StatusReadWhileIdle :
    (hosted [.read 32 0x04]).host = .read 32 0x04 :: [] ∧ (hosted [.read 32 0x04]).pending = false ∧
    (hosted [.read 32 0x04]).pendOut = [] := by decide

theorem witness_StatusReadWhileBusy :
    { hosted [.read 32 0x04] with pending := true }.pending = true ∧
    { hosted [.read 32 0x04] with pendOut := [0x61] }.pendOut ≠ [] := by decide

theorem witness_OutdataReadPops :
    (hosted [.read 32 0x08]).host = .read 32 0x08 :: [] ∧ (hosted [.read 32 0x08]).out = [] ∧
    { hosted [.read 32 0x08] with out := [0xFF] }.out = 0xFF :: [] := by decide

theorem witness_RegisterReadsAreExact :
    (hosted [.read 32 0x18]).host = .read 32 0x18 :: [] ∧ start.out.length < 2 ^ 32 ∧ start.pending = false ∧
    start.pendOut = [] ∧ (hosted [.read 32 0x0C]).host = .read 32 0x0C :: [] ∧
    (hosted [.read 32 0x14]).host = .read 32 0x14 :: [] ∧ (hosted [.read 32 0x10]).host = .read 32 0x10 :: [] := by decide

/-- The offsets where the clauses meet: CMD, ID, the first outside the window. -/
theorem witness_ConstantReads :
    (hosted [.read 32 0x00]).host = .read 32 0x00 :: [] ∧ 0x00 % 4 = 0 ∧
    (hosted [.read 32 0x1C]).host = .read 32 0x1C :: [] ∧ 0x1C % 4 = 0 ∧
    (hosted [.read 32 0x20]).host = .read 32 0x20 :: [] ∧ 0x20 % 4 = 0 ∧ 0x20 ≤ 0x20 := by decide

theorem witness_CmdWriteIssuesOrIsHeld :
    (hosted [.write 32 0x00 5]).host = .write 32 0x00 5 :: [] ∧ (hosted [.write 32 0x00 5]).pending = false ∧
    (hosted [.write 32 0x00 5]).pendOut = [] ∧ { hosted [.write 32 0x00 5] with pending := true }.pending = true ∧
    { hosted [.write 32 0x00 5] with pendOut := [0x61] }.pendOut ≠ [] := by decide

theorem witness_OtherWritesHaveNoEffect :
    (hosted [.write 32 0x04 5]).host = .write 32 0x04 5 :: [] ∧ 0x04 % 4 = 0 ∧ 0x04 ≠ 0 ∧
    (hosted [.write 32 0x20 5]).host = .write 32 0x20 5 :: [] ∧ 0x20 % 4 = 0 := by decide

theorem witness_OnlyAccessesOutsideTheSpecStop :
    step (hosted [.read 8 0x04]) = .refused .accessOutsideSpec ∧ step (hosted [.write 32 0x02 0]) = .refused .accessOutsideSpec ∧
    step (hosted [.otherMaster 0]) = .refused .secondBusMaster := ⟨rfl, rfl, rfl⟩

/-- Room for exactly one byte, and no room. -/
theorem witness_DeliveryMovesOneByte :
    { start with pendOut := [0x61], out := [0x62] }.pendOut = 0x61 :: [] ∧ start.pending = false ∧
    { start with pendOut := [0x61], out := [0x62] }.out.length < start.params.outDepth ∧
    start.params.outDepth ≤ { start with pendOut := [0x61], out := [0x62, 0x63] }.out.length := by decide

/-- An execute step that emits. -/
theorem witness_OutputStreamKeepsItsOrder :
    (∃ t, step { start with cmdreg := 0x00006111, pending := true } = .next t) ∧ (∀ rest, start.host ≠ .reset :: rest) ∧
    decode 0x00006111 ≠ .ok .clr := ⟨⟨_, exec_eq_after (.rdhist 0x61) _⟩, by simp [start], by decide⟩

/-- One byte more than OUT has room for, and a full OUT; a host that waits with WAIT. -/
theorem witness_UndrainedOutputHangs :
    (∀ e ∈ [HostEvent.wait [2], .pass, .read 32 0x04, .write 32 0x00 1], LeavesOut e) ∧ start.pending = false ∧ start.out.length ≤ start.params.outDepth ∧
    start.params.outDepth < start.out.length + { start with pendOut := [1, 2, 3] }.pendOut.length ∧
    { start with out := [1, 2] }.out.length ≤ start.params.outDepth ∧
    start.params.outDepth < { start with out := [1, 2] }.out.length + { start with pendOut := [3] }.pendOut.length :=
  ⟨by simp [LeavesOut], by decide⟩

/-- As many bytes as OUT has room for. -/
theorem witness_DeliveryDrainsPendingOutput :
    start.host = [] ∧ start.pending = false ∧
    start.out.length + { start with pendOut := [1, 2] }.pendOut.length ≤ start.params.outDepth := by decide

/-- The three ways a pass ends: a byte in OUT, nothing left, BUSY without a byte. -/
theorem witness_SyncLoopPass :
    (hosted [.sync []]).host = .sync [] :: [] ∧ { hosted [.sync []] with out := [1] }.outv = true ∧
    (hosted [.sync []]).outv = false ∧ (hosted [.sync []]).busy = false ∧
    { hosted [.sync []] with pending := true }.outv = false ∧ { hosted [.sync []] with pending := true }.busy = true := by decide

theorem witness_ResetInputClearsEverything : (hosted [.reset]).host = .reset :: [] := rfl

theorem witness_ResetAndClrAgree :
    exec .clr abcc = .next (after .clr abcc) ∧ ∃ u, step { abcc with host := .reset :: [] } = .next u :=
  ⟨exec_eq_after _ _, ⟨_, rfl⟩⟩

/-- The smallest and the largest parameters. -/
theorem witness_InvariantHoldsAtReset : Params.wf { maxLen := 1, maxClen := 1, outDepth := 1 } ∧ Params.largest.wf := by decide

/-- A counted text with a command pending has the invariant and takes a step. -/
theorem witness_EveryStepKeepsTheInvariant :
    Inv { aaa with cmdreg := 0x00000020, pending := true } ∧
    ∃ t, step { aaa with cmdreg := 0x00000020, pending := true } = .next t := by
  refine ⟨{ aaa_specInv with pending_alone := ?_, params_wf := ?_, idle_total := ?_, total_le := ?_, clen_le := ?_, out_le := ?_,
                             symbuf_wf := ?_, cbuf_wf := ?_, not_notFound := ?_, header_loaded := ?_ }, _, exec_eq_after .build _⟩
    <;> decide

/-- A state two steps from reset: SpecInvariantsHoldWhenReachable, ReachableStatesNeverRecordNotFound. -/
theorem witness_reachable : dev.wf ∧ ∃ t, Reachable dev t ∧ t.pending = true :=
  ⟨by decide, _, .step (.start [.write 32 0x00 0x00006110]) rfl, rfl⟩

/-- A final read after others, CLR, and a step from a state that opens its operation among its reads. -/
theorem witness_OperationEndsAtItsFirstFinalRead :
    endedReads.operationResult = some { succeeded := false, output := [] } ∧
    exec .clr endedReads = .next (after .clr endedReads) ∧ endedReads.opened ≤ endedReads.reads.length ∧
    (∃ t, step { endedReads with host := [.read 32 0x08] } = .next t) ∧
    ∃ t, step { endedReads with host := [.reset] } = .next t :=
  ⟨by decide, exec_eq_after _ _, by decide, ⟨_, rfl⟩, ⟨_, rfl⟩⟩

end Sys2Proof.Tests
end

section
/-! SUPPORT. Reads of the register window: what each register's read returns and leaves, and the read as a step
(spec/10_state.md R41 to R46, spec/20_memory.md R52, R54, R56). -/

namespace Sys2Proof.Machine

open Sys2Proof

theorem busy_eq_false {s : State} (hp : s.pending = false) (ho : s.pendOut = []) : s.busy = false := by
  simp [State.busy, hp, ho]

/-- While BUSY = 0 a field reads exactly and nothing is drawn. -/
theorem readField_idle {exact : State → Word} {drawn : State → Word → Word} {s : State} (h : s.busy = false) :
    readField exact drawn s = (exact s, s) := by
  simp [readField, h]

/-- Outside the window no offset selects a register. -/
theorem windowReg_outside {offset : Nat} (h : 0x20 ≤ offset) : windowReg offset = none := by
  unfold windowReg
  split
  case h_9 => rfl
  all_goals omega

theorem readWindow_outside {offset : Nat} (h : 0x20 ≤ offset) (s : State) : readWindow offset s = (0, s) := by
  rw [readWindow, windowReg_outside h]

theorem readWindow_status (s : State) : readWindow 0x04 s = readField State.statusWord State.statusDrawn s := rfl

theorem readWindow_outdata (s : State) : readWindow 0x08 s = readOutdata s := rfl

theorem readWindow_total (s : State) : readWindow 0x0C s = readField State.total (fun _ f => f) s := rfl

theorem readWindow_info (s : State) : readWindow 0x10 s = readField State.infoWord (fun _ f => f) s := rfl

theorem readWindow_clen (s : State) : readWindow 0x14 s = readField State.clen (fun _ f => f) s := rfl

theorem readWindow_outcnt (s : State) : readWindow 0x18 s = (s.outcntWord, s) := rfl

theorem readWindow_id (s : State) : readWindow 0x1C s = (Config.idWord, s) := rfl

theorem readOutdata_nil {s : State} (h : s.out = []) : readOutdata s = (0, s) := by
  simp [readOutdata, h]

theorem readOutdata_cons {s : State} {b : Byte} {rest : List Byte} (h : s.out = b :: rest) :
    readOutdata s = (outdataWord b, { s with out := rest }) := by
  simp [readOutdata, h]

/-- A field's read leaves the state, or counts one free draw more. -/
theorem readField_cases (exact : State → Word) (drawn : State → Word → Word) (s : State) :
    (readField exact drawn s).2 = s ∨ (readField exact drawn s).2 = { s with freeCount := s.freeCount + 1 } := by
  unfold readField
  split
  · exact .inr rfl
  · exact .inl rfl

/-- All a read of the window can do: nothing, take a free draw, or pop OUT. -/
theorem readWindow_cases (offset : Nat) (s : State) :
    (readWindow offset s).2 = s ∨ (readWindow offset s).2 = { s with freeCount := s.freeCount + 1 } ∨
      ∃ b rest, s.out = b :: rest ∧ (readWindow offset s).2 = { s with out := rest } := by
  unfold readWindow
  split
  case h_1 | h_2 | h_8 | h_9 => exact .inl rfl
  case h_3 | h_5 | h_6 | h_7 => exact (readField_cases _ _ s).imp_right .inl
  case h_4 =>
    cases ho : s.out with
    | nil => exact .inl (by rw [readOutdata_nil ho])
    | cons b rest => exact .inr (.inr ⟨b, rest, rfl, by rw [readOutdata_cons ho]⟩)

/-- A read that only returns a word, as a step: the host has one event less and one read more. -/
theorem step_read_unchanged {s : State} {offset : Nat} {rest : List HostEvent} {v : Word}
    (h : s.host = .read 32 offset :: rest) (ha : offset % 4 = 0)
    (hr : readWindow offset { s with host := rest } = (v, { s with host := rest })) :
    step s = .next { s with host := rest, reads := s.reads ++ [{ offset := offset, value := v }] } := by
  rw [step_read h ha, hostRead, hr]

/-- The fields of INFO read back: it is laid out as a command word is, TABN in place of OPC and PAD in place of IMM8. -/
theorem infoWord_fields (s : State) :
    s.infoWord.extractLsb' 0 8 = s.tabn ∧ s.infoWord.extractLsb' 8 8 = s.pad ∧ s.infoWord.extractLsb' 16 16 = 0 :=
  Fields.mk.inj (fieldsOf_wordOf s.tabn s.pad)

theorem outcntWord_toNat {s : State} (h : s.out.length < 2 ^ 32) : s.outcntWord.toNat = s.out.length := by
  rw [State.outcntWord, BitVec.toNat_ofNat, Nat.mod_eq_of_lt h]

theorem errf_iff (s : State) : s.errf = true ↔ s.err ≠ .none := by simp [State.errf]

theorem ok_iff (s : State) : s.ok = true ↔ s.err = .none ∧ (s.phase = .eDone ∨ s.phase = .dDone) := by
  simp [State.ok]

theorem outv_iff (s : State) : s.outv = true ↔ s.out ≠ [] := by simp [State.outv]

end Sys2Proof.Machine
end

section
/-! PROOFS. The register window and the bus (spec/10_state.md R23, R41 to R46). -/

namespace Sys2Proof.Machine

open Sys2Proof Sys2Proof.Claims

/-- Settles O39: the numbers are those of the two tables. -/
theorem phaseAndErrorCodes : Obligations.PhaseAndErrorCodes := ⟨rfl, rfl⟩

/-- Settles O40: while BUSY = 0 the word is `statusWord`, whose fields read back. -/
theorem statusReadWhileIdle : Obligations.StatusReadWhileIdle := by
  intro s rest hh hp ho
  have hb : { s with host := rest }.busy = false := busy_eq_false hp ho
  obtain ⟨hbusy, herrf, hok, houtv, hphase, herr, hzero⟩ :=
    statusOf_fields s.err.code s.phase.code s.outv s.ok s.errf s.busy
  refine ⟨s.statusWord, step_read_unchanged hh rfl ?_, hbusy.trans hb, ?_, ?_, ?_, hphase, herr, hzero⟩
  · rw [readWindow_status, readField_idle hb]; rfl
  · rw [State.statusWord, herrf, errf_iff]
  · rw [State.statusWord, hok, ok_iff]
  · rw [State.statusWord, houtv, outv_iff]

/-- Settles O42: OUTDATA's read in its two cases, OUT with a head byte and OUT empty. -/
theorem outdataReadPops : Obligations.OutdataReadPops := by
  refine fun s rest hh => ⟨fun b out ho => ?_, fun ho => ?_⟩
  · rw [step_read hh rfl, hostRead, readWindow_outdata, readOutdata_cons (s := { s with host := rest }) ho, outdataWord_eq]
  · exact step_read_unchanged hh rfl (readOutdata_nil ho)

/-- Settles O43: the exact fields while BUSY = 0, and OUTCNT at any time. -/
theorem registerReadsAreExact : Obligations.RegisterReadsAreExact := by
  refine fun s rest => ⟨fun hh => ⟨s.outcntWord, step_read_unchanged hh rfl rfl, outcntWord_toNat⟩, fun hp ho => ?_⟩
  have hb : { s with host := rest }.busy = false := busy_eq_false hp ho
  refine ⟨fun hh => step_read_unchanged hh rfl ?_, fun hh => step_read_unchanged hh rfl ?_,
    fun hh => ⟨s.infoWord, step_read_unchanged hh rfl ?_, infoWord_fields s⟩⟩
  · rw [readWindow_total, readField_idle hb]
  · rw [readWindow_clen, readField_idle hb]
  · rw [readWindow_info, readField_idle hb]; rfl

/-- Settles O44: ID, CMD and the offsets outside the window answer constants. -/
theorem constantReads : Obligations.ConstantReads := by
  refine fun s rest offset hh ha => ⟨?_, ?_⟩
  · rintro rfl
    exact step_read_unchanged hh ha rfl
  · rintro (rfl | hout)
    · exact step_read_unchanged hh ha rfl
    · exact step_read_unchanged hh ha (readWindow_outside hout _)

/-- Settles O46: only CMD's offset holds a write back or takes its word. -/
theorem otherWritesHaveNoEffect : Obligations.OtherWritesHaveNoEffect := by
  intro s w offset rest hh ha h0
  rw [step_write hh ha (by simp [writeHeld, h0]), hostWrite, if_neg h0]

end Sys2Proof.Machine
end

section
/-! SUPPORT. Code fields and the values after reset (spec/10_state.md R33, R47). -/

namespace Sys2Proof.Machine

open Sys2Proof

/-- Below the last position of a bit string its field holds zeros. -/
theorem fieldOfBits_getLsbD_low {w : Nat} (s : Bits) (k : Nat) (hk : k < w - s.length) :
    (fieldOfBits w s).getLsbD k = false := by
  rw [fieldOfBits, BitVec.getLsbD_ofNat, Nat.testBit_mul_two_pow, decide_eq_false (Nat.not_le.2 hk), Bool.false_and,
    Bool.and_false]

theorem CtEntry.len_ofBits {s : Bits} (h : s.length ≤ 254) : (CtEntry.ofBits s).len.toNat = s.length := by
  rw [CtEntry.ofBits, BitVec.toNat_ofNat, Nat.mod_eq_of_lt (by omega)]

@[simp] theorem resetWith_histAt (p : Params) (b : Byte) : (State.resetWith p).histAt b = 0 := by
  simp [State.histAt]

@[simp] theorem resetWith_ctAt_valid (p : Params) (b : Byte) : ((State.resetWith p).ctAt b).valid = false := by
  simp [State.ctAt]

@[simp] theorem resetWith_symbols (p : Params) : (State.resetWith p).symbols = [] := rfl

@[simp] theorem resetWith_busy (p : Params) : (State.resetWith p).busy = false := rfl

@[simp] theorem resetWith_statusWord (p : Params) : (State.resetWith p).statusWord = 0 := by
  change statusOf 0 0 false false false false = 0
  decide

@[simp] theorem resetWith_infoWord (p : Params) : (State.resetWith p).infoWord = 0 := by
  change wordOf 0 0 = 0
  decide

@[simp] theorem resetWith_outcntWord (p : Params) : (State.resetWith p).outcntWord = 0 := rfl

end Sys2Proof.Machine
end

section
/-! SUPPORT. The commands' own effects on what the invariant speaks of: counting, building, loading and parsing
(spec/41_frequency_counter.md R111, spec/42_tree_builder.md R135, spec/45_container.md R196, R203, R204). -/

namespace Sys2Proof.Machine

open Sys2Proof

/-! ## CNT -/

theorem performCnt_delimiter (s : State) : performCnt Config.delimiter s = raise .invalidSymbol s := by simp [performCnt]

theorem performCnt_full {b : Byte} {s : State} (hb : b ≠ Config.delimiter) (h : s.total.toNat = s.params.maxLen) :
    performCnt b s = raise .capacity s := by simp [performCnt, hb, h]

theorem performCnt_eq {b : Byte} {s : State} (hb : b ≠ Config.delimiter) (h : s.total.toNat ≠ s.params.maxLen) :
    performCnt b s = { s with
      hist := s.hist.set b.toNat (s.histAt b + 1) b.isLt, symbuf := s.symbuf.write s.total.toNat b
      total := s.total + 1, phase := .eCount } := by simp [performCnt, hb, h]

theorem performCnt_histAt_same {b : Byte} {s : State} (hb : b ≠ Config.delimiter) (h : s.total.toNat ≠ s.params.maxLen) :
    (performCnt b s).histAt b = s.histAt b + 1 := by
  simp [performCnt_eq hb h, State.histAt]

theorem performCnt_histAt_ne {b c : Byte} {s : State} (hb : b ≠ Config.delimiter) (h : s.total.toNat ≠ s.params.maxLen)
    (hc : c ≠ b) : (performCnt b s).histAt c = s.histAt c := by
  have : b.toNat ≠ c.toNat := fun e => hc (BitVec.eq_of_toNat_eq e.symm)
  simp [performCnt_eq hb h, State.histAt, Vector.getElem_set_ne, this]

/-- A counter below a buffer's size counts one up without wrapping. -/
theorem toNat_add_one {v : Word} {n : Nat} (h : v.toNat < n) (hn : n ≤ 2 ^ 32 - 1) : (v + 1).toNat = v.toNat + 1 := by
  rw [BitVec.toNat_add, Nat.mod_eq_of_lt (by simp; omega)]
  rfl

/-- The counted symbol joins the buffered ones at their end. -/
theorem performCnt_symbols {b : Byte} {s : State} (hb : b ≠ Config.delimiter) (h : s.total.toNat ≠ s.params.maxLen)
    (hwf : Memory.wf s.symbuf) (htotal : (s.total + 1).toNat = s.total.toNat + 1) :
    (performCnt b s).symbols = s.symbols ++ [b] := by
  have hend := Memory.slice_write_end 0 s.total.toNat b hwf
  rw [Nat.zero_add] at hend
  rw [performCnt_eq hb h, State.symbols, htotal, hend, State.symbols]

/-! ## BUILD -/

/-- Once something was counted, some symbol has a nonzero count. -/
theorem counted_ne_nil {s : State} (hsum : s.total.toNat = (allBytes.map fun b => (s.histAt b).toNat).sum) (h : s.total ≠ 0) :
    s.counted ≠ [] := by
  intro hc
  have hzero (b : Byte) : s.histAt b = 0 := by
    have := List.filter_eq_nil_iff.1 hc b (mem_allBytes b)
    simpa using this
  refine h (BitVec.eq_of_toNat_eq ?_)
  simp [hsum, hzero]

/-! ## DIN -/

theorem performDin_full {b : Byte} {s : State} (h : s.clen.toNat = s.params.maxClen) :
    performDin b s = raise .capacity s := by simp [performDin, h]

theorem performDin_eq {b : Byte} {s : State} (h : s.clen.toNat ≠ s.params.maxClen) :
    performDin b s = { s with cbuf := s.cbuf.write s.clen.toNat b, clen := s.clen + 1, phase := .dLoad } := if_neg h

/-! ## DHDR -/

/-- A parsed header has 1 to 255 entries, and its padding-length byte lies in the container. -/
theorem parseHeader_bounds {bytes : List Byte} {h : Header} (hp : parseHeader bytes = some h) :
    1 ≤ h.entries.length ∧ h.entries.length ≤ 255 ∧ h.ppos < bytes.length := by
  cases bytes with
  | nil => simp [parseHeader] at hp
  | cons size body =>
    simp only [parseHeader, Option.ite_none_left_eq_some] at hp
    obtain ⟨hn, hbody, -, -, hp⟩ := hp
    split at hp
    · simp at hp
    · rename_i codes rest hvalues
      simp only [Option.ite_none_left_eq_some, Option.some.injEq] at hp
      obtain ⟨-, hrest, rfl⟩ := hp
      obtain ⟨hcodes, -, -⟩ := (parseValues_iff _ _ _ _).1 hvalues
      have hsize := size.isLt
      have hpos : rest.length ≠ 0 := by simpa using hrest
      simp [hcodes]
      omega

theorem performDhdr_none {s : State} (h : parseHeader s.container = none) :
    performDhdr s = raise .corruptedHeader (freeDt s) := by simp [performDhdr, h]

theorem performDhdr_some {s : State} {h : Header} (hp : parseHeader s.container = some h) :
    performDhdr s = { s with
      dt := writeFrom s.dt 0 (h.entries.map fun e => DtEntry.ofPair e.1 e.2), tabn := BitVec.ofNat 8 h.entries.length
      ppos := BitVec.ofNat 32 h.ppos, pad := s.cbuf.read h.ppos, phase := .dHdr } := by simp [performDhdr, hp]

/-- DHDR ends in D_HDR or in ERROR. -/
theorem performDhdr_phase {s : State} (h : (performDhdr s).phase ≠ .error) : (performDhdr s).phase = .dHdr := by
  cases hp : parseHeader s.container with
  | none => simp [performDhdr_none hp] at h
  | some header => rw [performDhdr_some hp]

end Sys2Proof.Machine
end

section
/-! SUPPORT. The invariant command by command. A command that runs has PENDING = 1, so a part of a composite may leave bytes in
PEND_OUT before PENDING is cleared: each lemma speaks of the state with PENDING cleared (`retire`), before and after. -/

namespace Sys2Proof.Machine

open Sys2Proof

/-! ## What the phases say -/

theorem Inv.err_none {s : State} (h : Inv s) (hp : s.phase ≠ .error) : s.err = .none := by
  by_contra he
  exact hp (h.err_iff_error.1 he)

theorem Inv.clen_of_counting {s : State} (h : Inv s) (hp : s.phase = .idle ∨ s.phase = .eCount) : s.clen = 0 :=
  h.encoding_clen (by obtain hp | hp := hp <;> rw [hp] <;> rfl)

theorem Inv.total_of_loading {s : State} (h : Inv s) (hp : s.phase = .idle ∨ s.phase = .dLoad) : s.total = 0 := by
  obtain hp | hp := hp
  · exact h.idle_total hp
  · exact h.decoding_total (by rw [hp]; rfl)

theorem Phase.encoding_of_treeBuilt {p : Phase} (h : p.treeBuilt = true) : p.encoding = true := by
  cases p <;> simp_all [Phase.treeBuilt, Phase.encoding]

/-! ## Reset and the host's side -/

theorem resetWith_inv {p : Params} (hp : p.wf) : Inv (State.resetWith p) where
  err_iff_error := by simp
  pending_alone := by simp
  total_eq_sum := by simp
  hist_counts := by simp
  no_delimiter := by simp
  encoding_clen := by simp
  decoding_total := by simp
  built_tabn := by simp [Phase.treeBuilt]
  params_wf := hp
  idle_total := by simp
  total_le := by simp
  clen_le := by simp
  out_le := by simp
  symbuf_wf := Memory.wf_nil
  cbuf_wf := Memory.wf_nil
  not_notFound := by simp
  header_loaded := by simp

theorem Inv.setHost {s : State} (h : Inv s) (host : List HostEvent) : Inv { s with host := host } :=
  h.of_agree rfl rfl rfl rfl rfl rfl rfl rfl rfl rfl h.out_le h.pending_alone

theorem Inv.resetElements {s : State} (h : Inv s) : Inv (Machine.resetElements s) :=
  (resetWith_inv h.params_wf).of_agree rfl rfl rfl rfl rfl rfl rfl rfl rfl rfl (by simp) (by simp)

/-- A read keeps the invariant: of all it reads, only OUT can change, and only by getting shorter. -/
theorem Inv.hostRead {s : State} (h : Inv s) (offset : Nat) : Inv (Machine.hostRead offset s) := by
  have hwindow : Inv (readWindow offset s).2 := by
    obtain hr | hr | ⟨b, rest, ho, hr⟩ := readWindow_cases offset s <;> rw [hr]
    · exact h
    · exact h.of_agree rfl rfl rfl rfl rfl rfl rfl rfl rfl rfl h.out_le h.pending_alone
    · have hout := h.out_le
      rw [ho, List.length_cons] at hout
      exact h.of_agree rfl rfl rfl rfl rfl rfl rfl rfl rfl rfl (Nat.le_of_succ_le hout) h.pending_alone
  exact hwindow.of_agree rfl rfl rfl rfl rfl rfl rfl rfl rfl rfl hwindow.out_le hwindow.pending_alone

/-- A write that is not held finds BUSY = 0, so a command that becomes pending is alone. -/
theorem Inv.hostWrite {s : State} (h : Inv s) {offset : Nat} (hb : writeHeld offset s = false) (v : Word) :
    Inv (Machine.hostWrite offset v s) := by
  unfold Machine.hostWrite
  split
  · rename_i h0
    have hidle : s.pendOut = [] := by
      simp [writeHeld, h0, State.busy] at hb
      exact hb.2
    exact h.of_agree rfl rfl rfl rfl rfl rfl rfl rfl rfl rfl h.out_le fun _ => hidle
  · exact h

/-- A delivery finds room in OUT. -/
theorem Inv.deliver {s : State} (h : Inv s) (hp : s.pending = false) (hc : s.canDeliver = true) :
    Inv (Machine.deliver s) := by
  unfold Machine.deliver
  split
  · exact h
  · have hroom : s.out.length < s.params.outDepth := by
      simp [State.canDeliver] at hc
      exact hc.2
    exact h.of_agree rfl rfl rfl rfl rfl rfl rfl rfl rfl rfl (by simpa using hroom) (by simp [hp])

/-! ## The commands -/

theorem emit_inv {s : State} (h : Inv (retire s)) (bytes : List Byte) : Inv (retire (emit bytes s)) :=
  h.of_agree rfl rfl rfl rfl rfl rfl rfl rfl rfl rfl h.out_le (by simp)

theorem raise_inv {s : State} (h : Inv (retire s)) {e : ErrCode} (h1 : e ≠ .none) (h2 : e ≠ .notFound) :
    Inv (retire (raise e s)) := h.raise h1 h2

/-- CNT keeps the sums and the buffer together: one count more, one symbol more. -/
theorem performCnt_inv {s : State} (h : Inv (retire s)) (b : Byte) (hp : s.phase = .idle ∨ s.phase = .eCount) :
    Inv (retire (performCnt b s)) := by
  by_cases hb : b = Config.delimiter
  · rw [hb, performCnt_delimiter]
    exact raise_inv h (by decide) (by decide)
  by_cases hfull : s.total.toNat = s.params.maxLen
  · rw [performCnt_full hb hfull]
    exact raise_inv h (by decide) (by decide)
  have hroom : s.total.toNat < s.params.maxLen := lt_of_le_of_ne h.total_le hfull
  obtain ⟨-, hmax, -⟩ : s.params.wf := h.params_wf
  have htotal := toNat_add_one hroom hmax
  have hsum : s.total.toNat = (allBytes.map fun c => (s.histAt c).toNat).sum := h.total_eq_sum
  have hcount : ∀ c, (s.histAt c).toNat = s.symbols.count c := h.hist_counts
  have hle : (s.histAt b).toNat ≤ s.total.toNat := hsum ▸ le_sum (fun c => (s.histAt c).toNat) b
  have hsame : ((performCnt b s).histAt b).toNat = (s.histAt b).toNat + 1 := by
    rw [performCnt_histAt_same hb hfull, toNat_add_one (hle.trans_lt hroom) hmax]
  have hother : ∀ c, c ≠ b → (performCnt b s).histAt c = s.histAt c := fun c hc => performCnt_histAt_ne hb hfull hc
  have herr : s.err = .none := h.err_none (by obtain hp | hp := hp <;> simp [hp])
  have heq := performCnt_eq hb hfull
  exact {
    err_iff_error := by simp [heq, herr]
    pending_alone := by simp
    total_eq_sum := by
      have := sum_update (fun c => (s.histAt c).toNat) (fun c => ((performCnt b s).histAt c).toNat) b hsame
        (fun c hc => by simp only [hother c hc]) allBytes nodup_allBytes
      rw [← hsum, if_pos (mem_allBytes b), ← htotal] at this
      rw [retire_total, congrArg State.total heq]
      exact this.symm
    hist_counts := fun c => by
      change ((performCnt b s).histAt c).toNat = (performCnt b s).symbols.count c
      rw [performCnt_symbols hb hfull h.symbuf_wf htotal, List.count_append, List.count_singleton, ← hcount c]
      by_cases hc : c = b
      · subst hc; simp [hsame]
      · simp [hother c hc, Ne.symm hc]
    no_delimiter := (hother _ (Ne.symm hb)).trans h.no_delimiter
    encoding_clen := fun _ => by simpa [heq] using h.clen_of_counting hp
    decoding_total := by simp [heq, Phase.decoding]
    built_tabn := by simp [heq, Phase.treeBuilt]
    params_wf := by simpa [heq] using h.params_wf
    idle_total := by simp [heq]
    total_le := by rw [heq]; exact htotal ▸ hroom
    clen_le := by rw [heq]; exact h.clen_le
    out_le := by rw [heq]; exact h.out_le
    symbuf_wf := by rw [heq]; exact Memory.write_wf _ _ h.symbuf_wf
    cbuf_wf := by rw [heq]; exact h.cbuf_wf
    not_notFound := by simp [heq, herr]
    header_loaded := by simp [heq] }

/-- BUILD's TABN is the number of counted symbols, which lies in 1 to 255. -/
theorem performBuild_inv {s : State} (h : Inv (retire s)) (hp : s.phase = .idle ∨ s.phase = .eCount) :
    Inv (retire (performBuild s)) := by
  by_cases h0 : s.total = 0
  · rw [performBuild_empty h0]
    exact raise_inv h (by decide) (by decide)
  have herr : s.err = .none := h.err_none (by obtain hp | hp := hp <;> simp [hp])
  have hpos : 1 ≤ s.counted.length := List.length_pos_of_ne_nil (counted_ne_nil h.total_eq_sum h0)
  have hle : s.counted.length ≤ 255 := counted_length_le h.no_delimiter
  have htabn : (BitVec.ofNat 8 s.counted.length).toNat = s.counted.length := by
    rw [BitVec.toNat_ofNat, Nat.mod_eq_of_lt (by omega)]
  rw [performBuild_eq h0, buildTree_size]
  refine h.of_buffers rfl rfl rfl rfl rfl rfl h.out_le (by simp) (by simp [herr]) (by simp [herr])
    (fun _ => h.clen_of_counting hp) (by simp [Phase.decoding]) (fun _ => ?_) (by simp) (by simp)
  exact ⟨htabn.symm ▸ hpos, htabn⟩

/-- Between the phases of a built tree PHASE moves freely. -/
theorem Inv.setPhase_treeBuilt {s : State} (h : Inv s) (hs : s.phase.treeBuilt = true) {p : Phase} (hp : p.treeBuilt = true) :
    Inv { s with phase := p } := by
  have herr : s.err = .none := h.err_none (by rintro he; rw [he] at hs; exact absurd hs (by decide))
  refine h.of_buffers rfl rfl rfl rfl rfl rfl h.out_le h.pending_alone ?_ (by simp [herr])
    (fun _ => h.encoding_clen (Phase.encoding_of_treeBuilt hs)) ?_ (fun _ => h.built_tabn hs) ?_ ?_ <;>
    cases p <;> simp_all [Phase.treeBuilt, Phase.decoding]

theorem performGen_inv {s : State} (h : Inv (retire s)) (hp : s.phase = .eBuilt) : Inv (retire (performGen s)) :=
  (h.setPhase_treeBuilt (p := .eGen) (by simp [hp, Phase.treeBuilt]) rfl).of_agree rfl rfl rfl rfl rfl rfl rfl rfl rfl rfl
    h.out_le (by simp)

theorem performHdr_inv {s : State} (h : Inv (retire s)) (hp : s.phase = .eGen) : Inv (retire (performHdr s)) :=
  (h.setPhase_treeBuilt (p := .eHdr) (by simp [hp, Phase.treeBuilt]) rfl).of_agree rfl rfl rfl rfl rfl rfl rfl rfl rfl rfl
    h.out_le (by simp)

theorem performPack_inv {s : State} (h : Inv (retire s)) (hp : s.phase = .eHdr) : Inv (retire (performPack s)) :=
  (h.setPhase_treeBuilt (p := .eDone) (by simp [hp, Phase.treeBuilt]) rfl).of_agree rfl rfl rfl rfl rfl rfl rfl rfl rfl rfl
    h.out_le (by simp)

/-- ENC: the invariants of its four parts, one after another. -/
theorem performEnc_inv {s : State} (h : Inv (retire s)) (hp : s.phase = .idle ∨ s.phase = .eCount) :
    Inv (retire (perform .enc s)) := by
  by_cases h0 : s.total = 0
  · rw [performEnc_empty h0]
    exact raise_inv h (by decide) (by decide)
  · rw [performEnc_eq h0]
    have hbuild := performBuild_inv h hp
    have hgen := performGen_inv hbuild (by rw [performBuild_eq h0])
    exact performPack_inv (performHdr_inv hgen rfl) rfl

/-- DIN finds room in CBUF, and TOTAL = 0. -/
theorem performDin_inv {s : State} (h : Inv (retire s)) (b : Byte) (hp : s.phase = .idle ∨ s.phase = .dLoad) :
    Inv (retire (performDin b s)) := by
  by_cases hfull : s.clen.toNat = s.params.maxClen
  · rw [performDin_full hfull]
    exact raise_inv h (by decide) (by decide)
  have hroom : s.clen.toNat < s.params.maxClen := lt_of_le_of_ne h.clen_le hfull
  obtain ⟨-, -, -, hmax, -⟩ : s.params.wf := h.params_wf
  have hclen := toNat_add_one hroom hmax
  have herr : s.err = .none := h.err_none (by obtain hp | hp := hp <;> simp [hp])
  rw [performDin_eq hfull]
  exact {
    err_iff_error := by simp [herr]
    pending_alone := by simp
    total_eq_sum := h.total_eq_sum
    hist_counts := h.hist_counts
    no_delimiter := h.no_delimiter
    encoding_clen := by simp [Phase.encoding]
    decoding_total := fun _ => h.total_of_loading hp
    built_tabn := by simp [Phase.treeBuilt]
    params_wf := h.params_wf
    idle_total := by simp
    total_le := h.total_le
    clen_le := hclen ▸ hroom
    out_le := h.out_le
    symbuf_wf := h.symbuf_wf
    cbuf_wf := Memory.write_wf _ _ h.cbuf_wf
    not_notFound := h.not_notFound
    header_loaded := by simp }

/-- DHDR's TABN and PPOS are in the bounds of the header it parsed. -/
theorem performDhdr_inv {s : State} (h : Inv (retire s)) (hp : s.phase = .idle ∨ s.phase = .dLoad) :
    Inv (retire (performDhdr s)) := by
  cases hparse : parseHeader s.container with
  | none =>
    rw [performDhdr_none hparse]
    have hfree : Inv (retire (freeDt s)) := h.of_agree rfl rfl rfl rfl rfl rfl rfl rfl rfl rfl h.out_le (by simp)
    exact raise_inv hfree (by decide) (by decide)
  | some header =>
    obtain ⟨hpos, hle, hppos⟩ := parseHeader_bounds hparse
    rw [container_length] at hppos
    have hclen := s.clen.isLt
    have herr : s.err = .none := h.err_none (by obtain hp | hp := hp <;> simp [hp])
    rw [performDhdr_some hparse]
    refine h.of_buffers rfl rfl rfl rfl rfl rfl h.out_le (by simp) (by simp [herr]) (by simp [herr])
      (by simp [Phase.encoding]) (fun _ => h.total_of_loading hp) (by simp [Phase.treeBuilt]) (by simp) (fun _ => ?_)
    simp only [retire_tabn, retire_ppos, retire_clen, BitVec.toNat_ofNat]
    omega

theorem Inv.setPhase_dDone {s : State} (h : Inv s) (hp : s.phase = .dHdr) : Inv { s with phase := .dDone } := by
  have herr : s.err = .none := h.err_none (by simp [hp])
  exact h.of_buffers rfl rfl rfl rfl rfl rfl h.out_le h.pending_alone (by simp [herr]) (by simp [herr])
    (by simp [Phase.encoding]) (fun _ => h.decoding_total (by rw [hp]; rfl)) (by simp [Phase.treeBuilt]) (by simp)
    (fun _ => h.header_loaded (.inl hp))

theorem performDpay_inv {s : State} (h : Inv (retire s)) (hp : s.phase = .dHdr) : Inv (retire (performDpay s)) := by
  obtain ⟨bytes, hdone | hfail⟩ := performDpay_cases s
  · rw [hdone]
    exact (emit_inv h bytes).setPhase_dDone hp
  · rw [hfail]
    exact raise_inv (emit_inv h bytes) (by decide) (by decide)

/-- DEC: the invariants of its two parts, the second only where the first did not raise. -/
theorem performDec_inv {s : State} (h : Inv (retire s)) (hp : s.phase = .idle ∨ s.phase = .dLoad) :
    Inv (retire (perform .dec s)) := by
  have hdhdr := performDhdr_inv h hp
  by_cases he : (performDhdr s).phase = .error
  · rw [perform, andThen_of_error he]
    exact hdhdr
  · rw [perform, andThen_of_ok he]
    exact performDpay_inv hdhdr (performDhdr_phase he)

/-- Every command keeps the invariant in every phase where it is legal. -/
theorem perform_inv {s : State} (i : Instr) (h : Inv (retire s)) (hl : legal i s.phase = true) :
    Inv (retire (perform i s)) := by
  cases i with
  | nop => exact h
  | clr => exact h.resetElements
  | rdhist b => exact emit_inv h _
  | rdcode b => exact emit_inv h _
  | cnt b => exact performCnt_inv h b (by simpa [legal] using hl)
  | build => exact performBuild_inv h (by simpa [legal] using hl)
  | gen => exact performGen_inv h (by simpa [legal] using hl)
  | hdr => exact performHdr_inv h (by simpa [legal] using hl)
  | pack => exact performPack_inv h (by simpa [legal] using hl)
  | enc => exact performEnc_inv h (by simpa [legal] using hl)
  | din b => exact performDin_inv h b (by simpa [legal] using hl)
  | dhdr => exact performDhdr_inv h (by simpa [legal] using hl)
  | dpay => exact performDpay_inv h (by simpa [legal] using hl)
  | dec => exact performDec_inv h (by simpa [legal] using hl)

/-! ## The steps -/

theorem exec_inv {i : Instr} {s t : State} (h : Inv s) (he : exec i s = .next t) : Inv t := by
  rw [exec_eq_execute] at he
  obtain ⟨-, -, rfl⟩ | ⟨-, rfl⟩ | ⟨hl, rfl⟩ := execute_cases he
  · exact h.retire
  · exact h.raise (by decide) (by decide)
  · exact perform_inv i h.retire hl

theorem illegalWord_inv {s : State} (h : Inv s) : Inv (illegalWord s) := by
  unfold illegalWord
  split
  · exact h.retire
  · exact h.raise (by decide) (by decide)

theorem blockMove_inv {s t : State} (h : Inv s) (hm : (blockMove s).outcome = .next t) : Inv t := by
  obtain ⟨i, -, -, he⟩ | ⟨e, -, -, he⟩ | ⟨hp, hc, he⟩ | ⟨-, -, he⟩ := blockMove_cases s
  · exact exec_inv h (he ▸ hm)
  all_goals
    rw [he, Host.Outcome.next.injEq] at hm
    subst hm
  · exact illegalWord_inv h
  · exact h.deliver hp hc
  · exact h

/-- Every step, of the host or of the block, keeps the invariant. -/
theorem step_inv {s t : State} (h : Inv s) (hs : step s = .next t) : Inv t := by
  obtain ⟨host, hm⟩ | ⟨offset, rest, rfl⟩ | ⟨offset, v, rest, hb, rfl⟩ | ⟨rest, -, rfl⟩ | ⟨host, rfl⟩ := step_cases hs
  · exact blockMove_inv (h.setHost host) hm
  · exact (h.setHost rest).hostRead offset
  · exact (h.setHost rest).hostWrite hb v
  · exact (h.setHost rest).resetElements
  · exact (h.hostRead 0x04).setHost host

/-- The invariant's induction, done once: it holds of every state a device with legal parameters reaches. -/
theorem reachable_inv {p : Params} {s : State} (hp : p.wf) (hr : Reachable p s) : Inv s := by
  induction hr with
  | start host => exact (resetWith_inv hp).setHost host
  | step _ hs ih => exact step_inv ih hs

end Sys2Proof.Machine
end

section
/-! PROOFS. The statements on code fields, reset and the invariants (spec/10_state.md R33, R47, R48). -/

namespace Sys2Proof.Machine

open Sys2Proof Sys2Proof.Claims

/-- Settles O27: the positions stand from bit 253 down, zeros below them, and so the code reads back. -/
theorem codeFieldHoldsTheCode : Obligations.CodeFieldHoldsTheCode := by
  refine fun code hl => ⟨rfl, CtEntry.len_ofBits hl, fun j hj => ?_, fieldOfBits_getLsbD_low code, CtEntry.bits_ofBits code hl⟩
  have hmsb := fieldOfBits_getMsbD code hl j hj
  rw [BitVec.getMsbD, decide_eq_true (by omega), Bool.true_and] at hmsb
  exact hmsb

/-- Settles O53: every element R47 names, and the six registers of the window. -/
theorem resetStateValues : Obligations.ResetStateValues := by
  refine fun p => ⟨?_, rfl, ?window⟩
  case window =>
    simp [readWindow_status, readWindow_info, readWindow_total, readWindow_clen, readWindow_outcnt, readWindow_id,
      readField_idle (resetWith_busy p), Config.idWord]
  constructor
  case hist => exact resetWith_histAt p
  case ct => exact resetWith_ctAt_valid p
  all_goals rfl

/-- Settles O56: no count, no byte and no error are left after reset. -/
theorem invariantHoldsAtReset : Obligations.InvariantHoldsAtReset := fun _ => resetWith_inv

/-- Settles O57: the host's accesses, the block's moves and, by each command's own lemma, the execute steps keep `Inv`. -/
theorem everyStepKeepsTheInvariant : Obligations.EveryStepKeepsTheInvariant := fun _ _ => step_inv

/-- Settles O58: by induction on the steps from reset, with `Inv` in place of `SpecInv`. -/
theorem specInvariantsHoldWhenReachable : Obligations.SpecInvariantsHoldWhenReachable :=
  fun _ _ hp hr => (reachable_inv hp hr).toSpecInv

end Sys2Proof.Machine
end

section
/-! SUPPORT. The block's moves and the host's accesses as steps: what each answers, when a step is refused, and what the
block's move keeps of the host's side (spec/20_memory.md R53, R55 to R58, spec/60_exceptions.md R249). -/

namespace Sys2Proof.Machine

open Sys2Proof Sys2Proof.Claims

/-! ## The block's moves -/

theorem blockMove_run {s : State} {i : Instr} (hp : s.pending = true) (hd : decode s.cmdreg = .ok i) :
    (blockMove s).outcome = exec i s := by
  simp [blockMove, hp, hd, Move.outcome]

theorem blockMove_deliver {s : State} {b : Byte} {bytes : List Byte} (hp : s.pending = false) (ho : s.pendOut = b :: bytes)
    (hroom : s.out.length < s.params.outDepth) :
    (blockMove s).outcome = .next { s with pendOut := bytes, out := s.out ++ [b] } := by
  simp [blockMove, hp, State.canDeliver, deliver, ho, hroom, Move.outcome]

/-- Delivery waits while OUT is full. -/
theorem blockMove_full {s : State} (hp : s.pending = false) (hfull : s.params.outDepth ≤ s.out.length) :
    (blockMove s).outcome = .next s := by
  simp [blockMove, hp, State.canDeliver, Nat.not_lt.mpr hfull, Move.outcome]

/-- What the block's move gives whatever events the host has left, it gives in each situation in which the block moves. -/
theorem blockTakes_of_blockMove {s : State} {f : State → Host.Outcome State Fault Refusal}
    (h : ∀ host, (blockMove { s with host := host }).outcome = f { s with host := host }) : BlockTakes s f :=
  ⟨fun hh => (step_nil hh).trans (h s.host), fun rest hh => (step_pass hh).trans (h rest),
    fun _ _ hh hb => (step_held hh ((busy_iff s).mpr hb)).trans (h s.host)⟩

@[simp] theorem deliver_host (s : State) : (deliver s).host = s.host := by
  unfold deliver
  split <;> rfl

@[simp] theorem illegalWord_host (s : State) : (illegalWord s).host = s.host := by
  unfold illegalWord
  split <;> rfl

/-- The block takes no event off the host's list. -/
theorem blockMove_keeps_host {s t : State} (h : (blockMove s).outcome = .next t) : t.host = s.host := by
  obtain ⟨i, -, -, he⟩ | ⟨e, -, -, he⟩ | ⟨-, -, he⟩ | ⟨-, -, he⟩ := blockMove_cases s
  · exact (exec_keeps_host (he ▸ h)).1
  all_goals
    rw [he, Host.Outcome.next.injEq] at h
    subst h
  · exact illegalWord_host s
  · exact deliver_host s
  · rfl

/-! ## The host's accesses -/

/-- While BUSY = 1 a field is drawn, and the draw is counted. -/
theorem readField_busy {exact : State → Word} {drawn : State → Word → Word} {s : State} (h : s.busy = true) :
    readField exact drawn s = (drawn s (Config.freeRead s.freeCount), { s with freeCount := s.freeCount + 1 }) := by
  simp [readField, h]

theorem accessOk_eq_false_iff (width offset : Nat) : accessOk width offset = false ↔ width ≠ 32 ∨ offset % 4 ≠ 0 := by
  simp only [accessOk, Bool.and_eq_false_iff, beq_eq_false_iff_ne]

theorem outsideSpec_iff (e : HostEvent) : e.outsideSpec = true ↔
    (∃ width offset, e = .read width offset ∧ (width ≠ 32 ∨ offset % 4 ≠ 0)) ∨
    (∃ width offset v, e = .write width offset v ∧ (width ≠ 32 ∨ offset % 4 ≠ 0)) ∨ ∃ v, e = .otherMaster v := by
  cases e <;> simp [HostEvent.outsideSpec, accessOk_eq_false_iff]

/-- An access outside the spec is refused. -/
theorem step_outsideSpec {s : State} {e : HostEvent} {rest : List HostEvent} (h : s.host = e :: rest)
    (he : e.outsideSpec = true) : ∃ r, step s = .refused r := by
  rw [step_eq, nextMove, h]
  cases e with
  | read width offset =>
    have ha : accessOk width offset = false := by simpa [HostEvent.outsideSpec] using he
    exact ⟨.accessOutsideSpec, by simp [ha, Move.outcome]⟩
  | write width offset v =>
    have ha : accessOk width offset = false := by simpa [HostEvent.outsideSpec] using he
    exact ⟨.accessOutsideSpec, by simp [ha, Move.outcome]⟩
  | otherMaster v => exact ⟨.secondBusMaster, rfl⟩
  | pass | reset | sync gaps | wait gaps => exact absurd he Bool.false_ne_true

/-- Every other event, and a silent host, leads to a next state. -/
theorem step_insideSpec {s : State} (h : ∀ e rest, s.host = e :: rest → e.outsideSpec = false) : ∃ t, step s = .next t := by
  cases hh : s.host with
  | nil => exact step_nil hh ▸ blockMove_next s
  | cons e rest =>
    have he := h e rest hh
    cases e with
    | pass => exact step_pass hh ▸ blockMove_next _
    | read width offset =>
      obtain ⟨rfl, ha⟩ : width = 32 ∧ offset % 4 = 0 := by simpa [HostEvent.outsideSpec, accessOk] using he
      exact ⟨_, step_read hh ha⟩
    | write width offset v =>
      obtain ⟨rfl, ha⟩ : width = 32 ∧ offset % 4 = 0 := by simpa [HostEvent.outsideSpec, accessOk] using he
      cases hb : writeHeld offset s with
      | false => exact ⟨_, step_write hh ha hb⟩
      | true =>
        obtain ⟨rfl, hbusy⟩ : offset = 0 ∧ s.busy = true := by simpa [writeHeld] using hb
        exact step_held hh hbusy ▸ blockMove_next s
    | reset => exact ⟨_, step_reset hh⟩
    | otherMaster v => exact absurd he.symm Bool.false_ne_true
    | sync gaps => exact ⟨_, step_sync hh⟩
    | wait gaps => exact ⟨_, step_wait hh⟩

/-- A step answers a next state, or the host's next event is outside the spec and the step is refused. -/
theorem step_next_or_refused (s : State) : (∃ t, step s = .next t) ∨
    ∃ e rest r, s.host = e :: rest ∧ e.outsideSpec = true ∧ step s = .refused r := by
  by_cases h : ∃ e rest, s.host = e :: rest ∧ e.outsideSpec = true
  · obtain ⟨e, rest, hh, he⟩ := h
    obtain ⟨r, hr⟩ := step_outsideSpec hh he
    exact .inr ⟨e, rest, r, hh, he, hr⟩
  · exact .inl (step_insideSpec fun e rest hh => by simpa using fun he => h ⟨e, rest, hh, he⟩)

/-! ## Runs -/

/-- A run goes on from its first step's next state. -/
theorem run_succ {M : Host.Core} {s t : M.State} (k : Nat) (h : M.step s = .next t) : M.run (k + 1) s = M.run k t := by
  rw [Host.Core.run, h]

/-- As many steps as PEND_OUT has bytes deliver them all to an OUT with room for them, while the host is silent. -/
theorem run_delivers {s : State} (hh : s.host = []) (hp : s.pending = false)
    (hroom : s.out.length + s.pendOut.length ≤ s.params.outDepth) :
    Host.Core.run core s.pendOut.length s = .next { s with pendOut := [], out := s.out ++ s.pendOut } := by
  generalize ho : s.pendOut = bytes at hroom ⊢
  induction bytes generalizing s with
  | nil =>
    have hs : { s with pendOut := [], out := s.out ++ [] } = s := by rw [List.append_nil, ← ho]
    exact congrArg Host.Outcome.next hs.symm
  | cons b bytes ih =>
    rw [List.length_cons] at hroom ⊢
    have hstep := (step_nil hh).trans (blockMove_deliver hp ho (by omega))
    have hrest := ih (s := { s with pendOut := bytes, out := s.out ++ [b] }) hh hp rfl (by simp; omega)
    refine (run_succ (M := core) _ hstep).trans (hrest.trans ?_)
    simp

end Sys2Proof.Machine
end

section
/-! SUPPORT. The output stream (spec/20_memory.md R59): no read, delivery or illegal word changes it, and a command other than
CLR only appends to it. -/

namespace Sys2Proof.Machine

open Sys2Proof

/-- The output stream: the bytes the host has collected, then OUT, then PEND_OUT (20_memory.md R59). -/
def State.outputStream (s : State) : List Byte := collected s.reads ++ s.out ++ s.pendOut

theorem outputStream_deliver (s : State) : (deliver s).outputStream = s.outputStream := by
  unfold deliver
  split
  case h_1 => rfl
  case h_2 b rest ho => simp [State.outputStream, ho]

theorem outputStream_illegalWord (s : State) : (illegalWord s).outputStream = s.outputStream := by
  unfold illegalWord
  split <;> rfl

theorem outputStream_hostWrite (offset : Nat) (v : Word) (s : State) :
    (hostWrite offset v s).outputStream = s.outputStream := by
  unfold hostWrite
  split <;> rfl

theorem windowReg_eq_outdata {offset : Nat} (h : windowReg offset = some .outdata) : offset = 0x08 := by
  unfold windowReg at h
  split at h
  case h_3 => rfl
  all_goals simp at h

/-- Only OUTDATA's read touches OUT, and none touches PEND_OUT. -/
theorem readWindow_out {offset : Nat} (h : offset ≠ 0x08) (s : State) :
    (readWindow offset s).2.out = s.out ∧ (readWindow offset s).2.pendOut = s.pendOut := by
  unfold readWindow
  split
  case h_1 | h_2 | h_8 | h_9 => exact ⟨rfl, rfl⟩
  case h_3 | h_5 | h_6 | h_7 => obtain hr | hr := readField_cases _ _ s <;> rw [hr] <;> exact ⟨rfl, rfl⟩
  case h_4 hreg => exact absurd (windowReg_eq_outdata hreg) h

/-- A read moves at most the head of OUT, and that to the end of what the host has collected. -/
theorem outputStream_hostRead (offset : Nat) (s : State) : (hostRead offset s).outputStream = s.outputStream := by
  by_cases h : offset = 0x08
  · subst h
    simp only [State.outputStream, hostRead, readWindow_outdata, collected_append]
    cases ho : s.out with
    | nil =>
      rw [readOutdata_nil ho]
      simp [ho, collected]
    | cons b rest =>
      rw [readOutdata_cons ho]
      simp [collected_outdata]
  · obtain ⟨hout, hpend⟩ := readWindow_out h s
    simp [State.outputStream, hostRead, collected_append, collected_other _ h, hout, hpend]

theorem Emits.outputStream {s t : State} (h : Emits s t) : ∃ bytes, t.outputStream = s.outputStream ++ bytes := by
  obtain ⟨bytes, hb⟩ := h.pendOut
  exact ⟨bytes, by simp [State.outputStream, h.reads, h.out, hb]⟩

/-- The end of an execute step leaves the stream. -/
theorem outputStream_retire (s : State) : (retire s).outputStream = s.outputStream := rfl

/-- A command other than CLR only appends to the stream. -/
theorem outputStream_exec {i : Instr} {s t : State} (hi : i ≠ .clr) (h : exec i s = .next t) :
    ∃ bytes, t.outputStream = s.outputStream ++ bytes := by
  rw [exec_eq_execute] at h
  obtain ⟨-, -, rfl⟩ | ⟨-, rfl⟩ | ⟨-, rfl⟩ := execute_cases h
  · exact ⟨[], (List.append_nil _).symm⟩
  · exact ⟨[], (List.append_nil _).symm⟩
  · exact outputStream_retire (perform i s) ▸ (perform_emits i s hi).outputStream

/-- The block's move only appends to the stream, and only when a command is pending that is not CLR. -/
theorem outputStream_blockMove {s t : State} (hclr : ¬ (s.pending = true ∧ decode s.cmdreg = .ok .clr))
    (h : (blockMove s).outcome = .next t) :
    ∃ bytes, t.outputStream = s.outputStream ++ bytes ∧ (s.pending = false → bytes = []) := by
  obtain ⟨i, hp, hd, he⟩ | ⟨e, -, -, he⟩ | ⟨-, -, he⟩ | ⟨-, -, he⟩ := blockMove_cases s
  case inl =>
    have hi : i ≠ .clr := fun hi => hclr ⟨hp, hi ▸ hd⟩
    obtain ⟨bytes, hb⟩ := outputStream_exec hi (he ▸ h)
    exact ⟨bytes, hb, by simp [hp]⟩
  all_goals
    rw [he, Host.Outcome.next.injEq] at h
    subst h
  · exact ⟨[], by simp [outputStream_illegalWord], fun _ => rfl⟩
  · exact ⟨[], by simp [outputStream_deliver], fun _ => rfl⟩
  · exact ⟨[], by simp, fun _ => rfl⟩

/-- A step other than reset and CLR's only appends to the stream, and only when a command is pending. -/
theorem outputStream_step {s t : State} (h : step s = .next t) (hreset : ∀ rest, s.host ≠ .reset :: rest)
    (hclr : ¬ (s.pending = true ∧ decode s.cmdreg = .ok .clr)) :
    ∃ bytes, t.outputStream = s.outputStream ++ bytes ∧ (s.pending = false → bytes = []) := by
  have hsame : t.outputStream = s.outputStream →
      ∃ bytes, t.outputStream = s.outputStream ++ bytes ∧ (s.pending = false → bytes = []) :=
    fun hs => ⟨[], by simp [hs], fun _ => rfl⟩
  obtain ⟨host, hm⟩ | ⟨offset, rest, rfl⟩ | ⟨offset, v, rest, -, rfl⟩ | ⟨rest, hr, -⟩ | ⟨host, rfl⟩ := step_cases h
  · exact outputStream_blockMove (s := { s with host := host }) hclr hm
  · exact hsame (outputStream_hostRead offset { s with host := rest })
  · exact hsame (outputStream_hostWrite offset v { s with host := rest })
  · exact absurd hr (hreset rest)
  · exact hsame (outputStream_hostRead 0x04 s)

end Sys2Proof.Machine
end

section
/-! PROOFS. The statements on the bus, the block's moves and delivery (spec/20_memory.md R53 to R61). -/

namespace Sys2Proof.Machine

open Sys2Proof Sys2Proof.Claims

/-- Settles O5: the block's move is the command's, in each situation in which the block moves. -/
theorem pendingCommandExecutes : Obligations.PendingCommandExecutes :=
  fun _ _ hp hd => blockTakes_of_blockMove fun _ => blockMove_run hp hd

/-- Settles O41: the word is a drawn STATUS, whose BUSY, OUTV and reserved bits do not depend on the draw. -/
theorem statusReadWhileBusy : Obligations.StatusReadWhileBusy := by
  intro s rest hh hb
  have hbusy : s.busy = true := (busy_iff s).mpr hb
  let draw := Config.freeRead s.freeCount
  obtain ⟨hbit, -, -, houtv, -, -, hzero⟩ := statusOf_fields (draw.extractLsb' 8 4) (draw.extractLsb' 4 4) s.outv
    (draw.getLsbD 2) (draw.getLsbD 1) s.busy
  refine ⟨s.statusDrawn draw, ?_, hbit.trans hbusy, ?_, hzero⟩
  · rw [step_read hh rfl, hostRead, readWindow_status, readField_busy (s := { s with host := rest }) hbusy]
    rfl
  · rw [State.statusDrawn, houtv, outv_iff]

/-- Settles O45: the write is taken while BUSY = 0, and while BUSY = 1 the block moves as it does when the host passes. -/
theorem cmdWriteIssuesOrIsHeld : Obligations.CmdWriteIssuesOrIsHeld := by
  refine fun s w rest hh => ⟨fun hp ho => ?_, fun hb => ?_⟩
  · rw [step_write hh rfl (by simp [writeHeld, busy_eq_false hp ho]), hostWrite, if_pos rfl]
  · obtain ⟨t, ht⟩ := blockMove_next s
    exact ⟨t, (step_held hh ((busy_iff s).mpr hb)).trans ht, blockMove_keeps_host ht, (step_pass rfl).trans ht⟩

/-- Settles O47: a step answers a next state unless the host's next event is outside the spec, and then it is refused. -/
theorem onlyAccessesOutsideTheSpecStop : Obligations.OnlyAccessesOutsideTheSpecStop := by
  refine fun s => ⟨fun f => f.rec, fun ⟨r, hr⟩ => ?_, fun ⟨e, rest, hh, he⟩ => ?_⟩
  · obtain ⟨t, ht⟩ | ⟨e, rest, -, hh, he, -⟩ := step_next_or_refused s
    · rw [ht] at hr
      nomatch hr
    · exact ⟨e, rest, hh, (outsideSpec_iff e).mp he⟩
  · exact step_outsideSpec hh ((outsideSpec_iff e).mpr he)

/-- Settles O48: the two cases of a delivery, room in OUT and OUT full. -/
theorem deliveryMovesOneByte : Obligations.DeliveryMovesOneByte :=
  fun _ _ _ hp ho => ⟨fun hroom => blockTakes_of_blockMove fun _ => blockMove_deliver hp ho hroom,
    fun hfull => blockTakes_of_blockMove fun _ => blockMove_full hp hfull⟩

/-- Settles O49: of all a step can do, only a command other than CLR changes the output stream, and it appends. -/
theorem outputStreamKeepsItsOrder : Obligations.OutputStreamKeepsItsOrder :=
  fun _ _ => outputStream_step

/-- Settles O51: by induction on the bytes pending, one delivery step each. -/
theorem deliveryDrainsPendingOutput : Obligations.DeliveryDrainsPendingOutput :=
  fun _ hh hp hroom => ⟨_, run_delivers hh hp hroom, rfl, busy_eq_false hp rfl⟩

end Sys2Proof.Machine
end

section
/-! SUPPORT. When a word decodes to a command and when it is illegal, said through the checks of its fields, and the legal word
of a command as a shift (spec/30_encoding.md R72 to R76). -/

namespace Sys2Proof

/-! ## The legal words -/

/-- The word of an opcode and an operand is `(IMM8 << 8) | OPC` (30_encoding.md R75). -/
theorem wordOf_eq_shift_or (opc imm8 : Byte) : wordOf opc imm8 = (imm8.setWidth 32 <<< 8) ||| opc.setWidth 32 := by
  apply BitVec.eq_of_getLsbD_eq
  intro j hj
  rw [wordOf_getLsbD]
  by_cases h : j < 8
  · simp [h, hj]
  · simp [h, hj, BitVec.getLsbD_of_ge opc j (Nat.not_lt.1 h)]

/-- A word decodes to a command exactly when its opcode names the command and its two further checks pass. -/
theorem decode_eq_ok_iff (w : Word) (i : Instr) : decode w = .ok i ↔
    commandOf (fieldsOf w).opc (fieldsOf w).imm8 = some i ∧ (fieldsOf w).reservedZero = true ∧
      (fieldsOf w).operandAllowed = true := by
  simp only [decode]
  cases commandOf (fieldsOf w).opc (fieldsOf w).imm8 with
  | none => simp
  | some j => cases (fieldsOf w).reservedZero <;> cases (fieldsOf w).operandAllowed <;> simp

/-- Each command's word reads back as the command. -/
theorem decode_encode (i : Instr) : decode (encode i) = .ok i := by
  cases i with
  | nop => exact Laws.RoundTrip.nop.2
  | clr => exact Laws.RoundTrip.clr.2
  | cnt b => exact (Laws.RoundTrip.cnt b).2
  | rdhist b => exact (Laws.RoundTrip.rdhist b).2
  | build => exact Laws.RoundTrip.build.2
  | gen => exact Laws.RoundTrip.gen.2
  | rdcode b => exact (Laws.RoundTrip.rdcode b).2
  | hdr => exact Laws.RoundTrip.hdr.2
  | pack => exact Laws.RoundTrip.pack.2
  | enc => exact Laws.RoundTrip.enc.2
  | din b => exact (Laws.RoundTrip.din b).2
  | dhdr => exact Laws.RoundTrip.dhdr.2
  | dpay => exact Laws.RoundTrip.dpay.2
  | dec => exact Laws.RoundTrip.dec.2

/-- A word that decodes to a command has no free bit left: it is the command's word. -/
theorem eq_encode_of_decode {w : Word} {i : Instr} (h : decode w = .ok i) : w = encode i := by
  obtain ⟨hcommand, hreserved, hoperand⟩ := (decode_eq_ok_iff w i).mp h
  have hrsv : (fieldsOf w).rsv = 0 := by simpa [Fields.reservedZero] using hreserved
  calc w = wordOf (fieldsOf w).opc (fieldsOf w).imm8 := (wordOf_fieldsOf hrsv).symm
    _ = encode i := (encode_of_commandOf hcommand hoperand).symm

theorem decode_eq_ok_iff_eq_encode (w : Word) (i : Instr) : decode w = .ok i ↔ w = encode i :=
  ⟨eq_encode_of_decode, fun h => h ▸ decode_encode i⟩

/-! ## The illegal words -/

/-- An opcode names a command exactly when it is in one of the two lists of opcodes, whatever the operand. -/
theorem exists_commandOf_iff (opc imm8 : Byte) :
    (∃ i, commandOf opc imm8 = some i) ↔ opc ∈ plainOpcodes ++ operandOpcodes := by
  simp only [commandOf, plainOpcodes, operandOpcodes, List.cons_append, List.nil_append, List.mem_cons, List.not_mem_nil,
    or_false, ← BitVec.toNat_inj]
  generalize opc.toNat = n
  split
  case h_15 => simp_all
  all_goals simp

theorem opcodeAssigned_iff (f : Fields) : f.opcodeAssigned = true ↔ f.opc ∈ plainOpcodes ++ operandOpcodes := by
  simp [Fields.opcodeAssigned]

/-- A word is legal exactly when its fields are well-formed. -/
theorem decode_ok_iff_wellFormed (w : Word) : (∃ i, decode w = .ok i) ↔ (fieldsOf w).wellFormed = true := by
  simp only [decode_eq_ok_iff, exists_and_right, exists_commandOf_iff, Fields.wellFormed, Bool.and_eq_true, and_assoc,
    opcodeAssigned_iff]

theorem decode_error_iff_not_wellFormed (w : Word) : (∃ e, decode w = .error e) ↔ (fieldsOf w).wellFormed = false := by
  rw [← Bool.not_eq_true, ← decode_ok_iff_wellFormed]
  cases decode w <;> simp

/-- Fields are ill-formed exactly when one of their three checks fails. -/
theorem wellFormed_eq_false_iff (f : Fields) : f.wellFormed = false ↔
    f.opc ∉ plainOpcodes ++ operandOpcodes ∨ f.rsv ≠ 0 ∨ (f.opc ∈ plainOpcodes ∧ f.imm8 ≠ 0) := by
  rw [Fields.wellFormed, Bool.and_eq_false_iff, Bool.and_eq_false_iff, or_assoc]
  refine or_congr ?opcode (or_congr ?reserved ?operand)
  case opcode => rw [← Bool.not_eq_true, opcodeAssigned_iff]
  case reserved => simp [Fields.reservedZero]
  case operand => simp [Fields.operandAllowed]

end Sys2Proof
end

section
/-! SUPPORT. One pass of the host loop SYNC: the word its STATUS read returns and what the read leaves
(spec/30_encoding.md R80, spec/20_memory.md R56). -/

namespace Sys2Proof.Machine

open Sys2Proof

/-- BUSY and OUTV read exact at any time, whatever is drawn for the other bits (20_memory.md R56). -/
theorem readWindow_status_bits (s : State) :
    (readWindow 0x04 s).1.getLsbD 0 = s.busy ∧ (readWindow 0x04 s).1.getLsbD 3 = s.outv := by
  rw [readWindow_status]
  cases hb : s.busy with
  | false =>
    obtain ⟨hbusy, -, -, houtv, -⟩ := statusOf_fields s.err.code s.phase.code s.outv s.ok s.errf s.busy
    rw [readField_idle hb]
    exact ⟨hbusy.trans hb, houtv⟩
  | true =>
    let draw := Config.freeRead s.freeCount
    obtain ⟨hbusy, -, -, houtv, -⟩ := statusOf_fields (draw.extractLsb' 8 4) (draw.extractLsb' 4 4) s.outv
      (draw.getLsbD 2) (draw.getLsbD 1) s.busy
    rw [readField_busy hb]
    exact ⟨hbusy.trans hb, houtv⟩

/-- The host's read of STATUS changes the list of reads and the count of free draws. -/
theorem hostRead_status (s : State) : hostRead 0x04 s =
    { s with
      reads := s.reads ++ [{ offset := 0x04, value := (readWindow 0x04 s).1 }]
      freeCount := (hostRead 0x04 s).freeCount } := by
  simp only [hostRead, readWindow_status]
  obtain h | h := readField_cases State.statusWord State.statusDrawn s <;> rw [h]

end Sys2Proof.Machine
end

section
/-! PROOFS. The statements on the encoding of commands and the host loop SYNC (spec/30_encoding.md R72 to R80). -/

namespace Sys2Proof.Machine

open Sys2Proof Sys2Proof.Claims

/-- Settles O3: a command's word reads back as the command, and a word that decodes to a command is put together from its
fields. -/
theorem decodeAndEncodeAgree : Obligations.DecodeAndEncodeAgree := decode_eq_ok_iff_eq_encode

/-- Settles O1: the one word of each command without operand is its OPC, of each with an operand `(IMM8 << 8) | OPC`. -/
theorem legalWordsOfEachCommand : Obligations.LegalWordsOfEachCommand := by
  intro w
  have legal := decode_eq_ok_iff_eq_encode w
  refine ⟨legal .nop, legal .clr, legal .build, legal .gen, legal .hdr, legal .pack, legal .enc, legal .dhdr, legal .dpay,
    legal .dec, fun b => ?_⟩
  simp only [legal, encode, wordOf_eq_shift_or]
  exact ⟨Iff.rfl, Iff.rfl, Iff.rfl, Iff.rfl⟩

/-- Settles O2: an illegal word is one that fails one of the three checks of its fields. -/
theorem illegalWordsAreTheIllegalSpace : Obligations.IllegalWordsAreTheIllegalSpace := by
  intro w
  have hperm : List.Perm (plainOpcodes ++ operandOpcodes)
      [0x00, 0x01, 0x10, 0x11, 0x20, 0x21, 0x22, 0x30, 0x31, 0x3F, 0x40, 0x50, 0x51, 0x5F] := by decide
  rw [decode_error_iff_not_wellFormed, wellFormed_eq_false_iff, hperm.mem_iff]
  rfl

/-- Settles O52: the pass is a read of STATUS, and the host's next events go by the OUTV and BUSY it shows. -/
theorem syncLoopPass : Obligations.SyncLoopPass := by
  intro s gaps rest hh
  obtain ⟨hbusy, houtv⟩ := readWindow_status_bits s
  refine ⟨syncPass gaps rest s, _, step_sync hh, ?frame, hbusy, houtv, fun ho => ?byte, fun ho hb => ?leave,
    fun ho hb => ?again⟩
  case frame => rw [syncPass, hostRead_status]
  case byte => simp [syncPass, passes, ho]
  case leave => simp [syncPass, ho, hb]
  case again => simp [syncPass, passes, ho, hb]

end Sys2Proof.Machine
end

section
/-! SUPPORT. The stages of a command (spec/40_control.md R91 to R96): the legality table as lists of phases, the errors each
command's own checks raise, what the error gate lets through, and CLR's effect. -/

namespace Sys2Proof.Machine

open Sys2Proof Sys2Proof.Claims

/-! ## The phase check -/

/-- The two forms of the legality table of R92 agree. -/
theorem legal_iff_mem_legalPhases (i : Instr) (p : Phase) : legal i p = true ↔ p ∈ legalPhases i := by
  cases i
  case nop | clr => cases p <;> decide
  all_goals simp [legal, legalPhases, or_assoc]

/-- The errors a command's own checks raise (60_exceptions.md R232 to R235). -/
def ownErrors : Instr → List ErrCode
  | .cnt _ => [.invalidSymbol, .capacity]
  | .build | .enc => [.emptyInput]
  | .din _ => [.capacity]
  | .dhdr => [.corruptedHeader]
  | .dpay => [.corruptedPayload]
  | .dec => [.corruptedHeader, .corruptedPayload]
  | .nop | .clr | .rdhist _ | .gen | .rdcode _ | .hdr | .pack => []

theorem sequence_not_mem_ownErrors (i : Instr) : ErrCode.sequence ∉ ownErrors i := by
  cases i <;> simp [ownErrors]

theorem performDpay_err (s : State) : (performDpay s).err = s.err ∨ (performDpay s).err = .corruptedPayload := by
  obtain ⟨bytes, h | h⟩ := performDpay_cases s <;> rw [h]
  · exact .inl rfl
  · exact .inr rfl

/-- Every command but CLR leaves ERR as it was or records one of its own errors. -/
theorem perform_err_cases (i : Instr) (s : State) (hi : i ≠ .clr) :
    (perform i s).err = s.err ∨ (perform i s).err ∈ ownErrors i := by
  cases i with
  | clr => exact absurd rfl hi
  | nop | rdhist | gen | rdcode | hdr | pack => exact .inl rfl
  | cnt b =>
    by_cases hb : b = Config.delimiter
    · subst hb
      simp [perform, performCnt_delimiter, ownErrors]
    · by_cases hfull : s.total.toNat = s.params.maxLen
      · simp [perform, performCnt_full hb hfull, ownErrors]
      · simp [perform, performCnt_eq hb hfull]
  | build =>
    by_cases h : s.total = 0
    · simp [perform, performBuild_empty h, ownErrors]
    · simp [perform, performBuild_eq h]
  | enc =>
    by_cases h : s.total = 0
    · simp [performEnc_empty h, ownErrors]
    · rw [performEnc_eq h, performBuild_eq h]
      exact .inl rfl
  | din b =>
    by_cases hfull : s.clen.toNat = s.params.maxClen
    · simp [perform, performDin_full hfull, ownErrors]
    · simp [perform, performDin_eq hfull]
  | dhdr =>
    cases hp : parseHeader s.container with
    | none => simp [perform, performDhdr_none hp, ownErrors]
    | some header => simp [perform, performDhdr_some hp]
  | dpay => simpa [perform, ownErrors] using performDpay_err s
  | dec =>
    cases hp : parseHeader s.container with
    | none => simp [perform, andThen, performDhdr_none hp, ownErrors]
    | some header =>
      rw [perform, andThen_of_ok (by simp [performDhdr_some hp]), performDhdr_some hp]
      exact (performDpay_err _).imp_right fun h => by simp [h, ownErrors]

/-- No command's own checks record SEQUENCE. -/
theorem perform_not_sequence {i : Instr} {s : State} (h : (perform i s).err = .sequence) : s.err = .sequence := by
  by_cases hi : i = .clr
  · subst hi
    simp [perform] at h
  · obtain hkeep | hown := perform_err_cases i s hi
    · exact hkeep.symm.trans h
    · exact absurd (h ▸ hown) (sequence_not_mem_ownErrors i)

/-! ## The error gate -/

theorem passesErrorGate_eq_false {i : Instr} (hnop : i ≠ .nop) (hclr : i ≠ .clr) : passesErrorGate i = false := by
  cases i
  case nop => exact absurd rfl hnop
  case clr => exact absurd rfl hclr
  all_goals rfl

theorem illegalWord_gated {s : State} (h : s.phase = .error) : illegalWord s = retire s := by simp [illegalWord, h]

theorem blockMove_illegal {s : State} {e : Illegal} (hp : s.pending = true) (hd : decode s.cmdreg = .error e) :
    (blockMove s).outcome = .next (illegalWord s) := by
  simp [blockMove, hp, hd, Move.outcome]

theorem blockMove_illegal_gated {s : State} {e : Illegal} (hp : s.pending = true) (hd : decode s.cmdreg = .error e)
    (h : s.phase = .error) : (blockMove s).outcome = .next (retire s) := by
  rw [blockMove_illegal hp hd, illegalWord_gated h]

/-! ## NOP and CLR -/

theorem exec_nop (s : State) : exec .nop s = .next (retire s) := by
  rw [exec_eq_execute, execute_legal rfl fun _ => rfl, perform]

/-- With PENDING cleared at its end, CLR gives what the reset input gives. -/
theorem exec_clr (s : State) : exec .clr s = .next (resetElements s) := by
  rw [exec_eq_execute, execute_legal rfl fun _ => rfl]
  rfl

theorem resetElements_atReset (s : State) : AtReset (resetElements s) := by
  constructor
  case hist => exact resetWith_histAt s.params
  case ct => exact resetWith_ctAt_valid s.params
  all_goals rfl

@[simp] theorem resetElements_statusWord (s : State) : (resetElements s).statusWord = 0 := resetWith_statusWord s.params

end Sys2Proof.Machine
end

section
/-! PROOFS. The statements on the stages of a command, NOP and CLR (spec/40_control.md R91 to R96). -/

namespace Sys2Proof.Machine

open Sys2Proof Sys2Proof.Claims

/-- Settles O7: the phase check raises SEQUENCE, and past it a command records only errors of its own. -/
theorem sequenceExactlyOutsideLegalPhases : Obligations.SequenceExactlyOutsideLegalPhases := by
  refine fun i => ⟨fun s herror hmem => ?outside, fun s t hmem he herr => ?inside⟩
  case outside =>
    rw [← legal_iff_mem_legalPhases, Bool.not_eq_true] at hmem
    rw [exec_eq_execute, execute_sequence herror hmem]
    rfl
  case inside =>
    rw [exec_eq_execute] at he
    obtain ⟨-, -, rfl⟩ | ⟨hillegal, -⟩ | ⟨-, rfl⟩ := execute_cases he
    · exact herr
    · rw [(legal_iff_mem_legalPhases i s.phase).mpr hmem] at hillegal
      contradiction
    · exact perform_not_sequence herr

/-- Settles O8: the error gate stops every command but NOP and CLR, and an illegal word raises nothing in ERROR. -/
theorem errorGateIgnoresCommands : Obligations.ErrorGateIgnoresCommands := by
  refine fun s herror => ⟨fun i hnop hclr => ?_, fun e hp hd =>
    blockTakes_of_blockMove fun _ => blockMove_illegal_gated hp hd herror⟩
  exact (exec_eq_execute i s).trans (execute_gated herror (passesErrorGate_eq_false hnop hclr))

/-- Settles O9: OPC 0x00 names NOP, whose only word is 0, and NOP performs nothing. -/
theorem nopHasNoEffect : Obligations.NopHasNoEffect := by
  refine ⟨decode_encode .nop, fun w hopc hw => ?_, exec_nop⟩
  cases hd : decode w with
  | error e => exact ⟨e, rfl⟩
  | ok i =>
    obtain ⟨hcommand, -, -⟩ := (decode_eq_ok_iff w i).mp hd
    rw [show (fieldsOf w).opc = 0x00 from hopc] at hcommand
    obtain rfl : .nop = i := Option.some.inj hcommand
    exact absurd (eq_encode_of_decode hd) hw

/-- Settles O10: CLR gives the reset elements, in every phase. -/
theorem clrRestoresResetState : Obligations.ClrRestoresResetState :=
  ⟨decode_encode .clr, fun s => ⟨resetElements s, exec_clr s, resetElements_atReset s, rfl, resetElements_statusWord s,
    rfl, rfl, rfl, rfl⟩⟩

end Sys2Proof.Machine
end

section
/-! SUPPORT. Records of the node arena: what a write and a list of writes leave in it (spec/10_state.md R31). -/

namespace Sys2Proof.Machine

open Sys2Proof

theorem getElem?_writeFrom {α : Type} {n : Nat} (v : Vector α n) (k : Nat) (l : List α) (i : Nat) :
    (writeFrom v k l)[i]? = if i < n ∧ k ≤ i ∧ i < k + l.length then l[i - k]? else v[i]? := by
  induction l generalizing v k with
  | nil => simp [writeFrom]
  | cons x l ih =>
    rw [writeFrom, ih, Vector.getElem?_setIfInBounds]
    obtain hlt | rfl | hgt := Nat.lt_trichotomy i k
    · rw [if_neg (by omega), if_neg (by omega), if_neg (by omega)]
    · by_cases hi : i < n <;> simp [hi]
    · rw [show i - k = i - (k + 1) + 1 by omega, List.getElem?_cons_succ, if_neg (show ¬ k = i by omega)]
      simp only [List.length_cons]
      congr 1
      simp; omega

theorem nodeAt_set_same {arena : Vector Node 509} {i : Nat} (hi : i < 509) (x : Node) :
    nodeAt (arena.setIfInBounds i x) i = x := by
  simp [nodeAt, hi]

theorem nodeAt_set_ne {arena : Vector Node 509} {i j : Nat} (h : i ≠ j) (x : Node) :
    nodeAt (arena.setIfInBounds i x) j = nodeAt arena j := by
  simp [nodeAt, h]

theorem nodeAt_writeFrom {arena : Vector Node 509} {l : List Node} {i : Nat} (hi : i < l.length) :
    nodeAt (writeFrom arena 0 l) i = if i < 509 then l[i] else Node.unused := by
  unfold nodeAt
  rw [getElem?_writeFrom]
  by_cases h : i < 509 <;> simp [h, hi]

/-- Writing the same record to arenas that agree below its place leaves them agreeing up to it. -/
theorem nodeAt_set_congr {a₁ a₂ : Vector Node 509} {next : Nat} (h : ∀ i < next, nodeAt a₁ i = nodeAt a₂ i) (x : Node) :
    ∀ i < next + 1, nodeAt (a₁.setIfInBounds next x) i = nodeAt (a₂.setIfInBounds next x) i := by
  intro i hi
  obtain hlt | rfl := Nat.lt_succ_iff_lt_or_eq.mp hi
  · rw [nodeAt_set_ne hlt.ne', nodeAt_set_ne hlt.ne', h i hlt]
  · by_cases hb : i < 509
    · rw [nodeAt_set_same hb, nodeAt_set_same hb]
    · simp [nodeAt, hb]

end Sys2Proof.Machine
end

section
/-! SUPPORT. The arbiter: the node order as an order of numbers, and what one extraction takes from the queue
(spec/42_tree_builder.md R130). -/

namespace Sys2Proof.Machine

open Sys2Proof

/-- The key of the node order as one number: the weight, then the representative symbol. -/
def Node.key (a : Node) : Nat := a.weight.toNat * 256 + a.rep.toNat

theorem Node.before_iff_key_lt (a b : Node) : a.before b = true ↔ a.key < b.key := by
  have ha := a.rep.isLt
  have hb := b.rep.isLt
  simp only [Node.before, Node.key, Bool.or_eq_true, Bool.and_eq_true, decide_eq_true_eq, beq_iff_eq, BitVec.lt_def,
    ← BitVec.toNat_inj]
  omega

theorem Node.rep_eq_of_key_eq {a b : Node} (h : a.key = b.key) : a.rep = b.rep := by
  have ha := a.rep.isLt
  have hb := b.rep.isLt
  simp only [Node.key] at h
  exact BitVec.eq_of_toNat_eq (by omega)

/-- PQMin over a whole queue; an empty one, over which no run takes it, gives NIL. -/
def smallestOf (arena : Vector Node 509) : List Nat → Nat
  | [] => Config.nil.toNat
  | i :: live => pqMin arena i live

theorem pqMin_cons (arena : Vector Node 509) (i j : Nat) (live : List Nat) :
    pqMin arena i (j :: live) = pqMin arena (if (nodeAt arena j).before (nodeAt arena i) then j else i) live := rfl

theorem pqMin_mem (arena : Vector Node 509) (i : Nat) (live : List Nat) : pqMin arena i live ∈ i :: live := by
  induction live generalizing i with
  | nil => simp [pqMin]
  | cons j live ih =>
    rw [pqMin_cons]
    split
    · exact List.mem_cons_of_mem i (ih j)
    · exact ((List.Sublist.refl live).cons j |>.cons_cons i).subset (ih i)

/-- No key in the queue is smaller than PQMin's. -/
theorem pqMin_key_le (arena : Vector Node 509) (i : Nat) (live : List Nat) :
    ∀ j ∈ i :: live, (nodeAt arena (pqMin arena i live)).key ≤ (nodeAt arena j).key := by
  induction live generalizing i with
  | nil => simp [pqMin]
  | cons k live ih =>
    simp only [List.forall_mem_cons, pqMin_cons] at ih ⊢
    by_cases hk : (nodeAt arena k).before (nodeAt arena i) = true
    · obtain ⟨hmin, hrest⟩ := ih k
      rw [if_pos hk]
      rw [Node.before_iff_key_lt] at hk
      exact ⟨by omega, hmin, hrest⟩
    · obtain ⟨hmin, hrest⟩ := ih i
      rw [if_neg hk]
      rw [Node.before_iff_key_lt] at hk
      exact ⟨hmin, by omega, hrest⟩

theorem pqMin_congr {a₁ a₂ : Vector Node 509} {i : Nat} {live : List Nat}
    (h : ∀ j ∈ i :: live, nodeAt a₁ j = nodeAt a₂ j) : pqMin a₁ i live = pqMin a₂ i live := by
  induction live generalizing i with
  | nil => rfl
  | cons k live ih =>
    simp only [List.forall_mem_cons] at h ih
    obtain ⟨hi, hk, hrest⟩ := h
    rw [pqMin_cons, pqMin_cons, hi, hk]
    split
    · exact ih ⟨hk, hrest⟩
    · exact ih ⟨hi, hrest⟩

theorem smallestOf_mem (arena : Vector Node 509) {live : List Nat} (h : live ≠ []) : smallestOf arena live ∈ live := by
  cases live with
  | nil => exact absurd rfl h
  | cons i live => exact pqMin_mem arena i live

theorem smallestOf_congr {a₁ a₂ : Vector Node 509} {live : List Nat} (h : ∀ j ∈ live, nodeAt a₁ j = nodeAt a₂ j) :
    smallestOf a₁ live = smallestOf a₂ live := by
  cases live with
  | nil => rfl
  | cons i live => exact pqMin_congr h

/-- No two nodes of the queue have the same representative symbol. -/
def RepsDiffer (arena : Vector Node 509) (live : List Nat) : Prop :=
  ∀ i ∈ live, ∀ j ∈ live, (nodeAt arena i).rep = (nodeAt arena j).rep → i = j

/-- In a queue whose representative symbols differ, the extracted node comes before every other. -/
theorem smallestOf_before {arena : Vector Node 509} {live : List Nat}
    (hreps : RepsDiffer arena live) {j : Nat} (hj : j ∈ live)
    (hne : j ≠ smallestOf arena live) : (nodeAt arena (smallestOf arena live)).before (nodeAt arena j) = true := by
  have hmem := smallestOf_mem arena (List.ne_nil_of_mem hj)
  have hle : (nodeAt arena (smallestOf arena live)).key ≤ (nodeAt arena j).key := by
    cases live with
    | nil => simp at hj
    | cons i live => exact pqMin_key_le arena i live j hj
  rw [Node.before_iff_key_lt]
  refine lt_of_le_of_ne hle fun he => hne ?_
  exact hreps j hj _ hmem (Node.rep_eq_of_key_eq he.symm)

end Sys2Proof.Machine
end

section
/-! SUPPORT. One pass of the merge loop and what the loop keeps (spec/42_tree_builder.md R131, R135, R136). -/

namespace Sys2Proof.Machine

open Sys2Proof

/-! ## One pass -/

theorem joinNode_rep_cases (arena : Vector Node 509) (a b : Nat) :
    (joinNode arena a b).rep = (nodeAt arena a).rep ∨ (joinNode arena a b).rep = (nodeAt arena b).rep := by
  rw [joinNode]
  exact ite_eq_or_eq _ _ _

theorem joinNode_rep_toNat (arena : Vector Node 509) (a b : Nat) :
    (joinNode arena a b).rep.toNat = min (nodeAt arena a).rep.toNat (nodeAt arena b).rep.toNat := by
  simp only [joinNode, min_def, BitVec.le_def]
  split <;> rfl

theorem smallestOf_mem_of_two (arena : Vector Node 509) {live : List Nat} (h : 2 ≤ live.length) :
    smallestOf arena live ∈ live := smallestOf_mem arena (List.ne_nil_of_length_pos (by omega))

/-- The node a pass of the merge loop extracts second. -/
def secondOf (arena : Vector Node 509) (live : List Nat) : Nat :=
  smallestOf arena (live.erase (smallestOf arena live))

/-- The arena after a pass: the two extracted nodes joined in record `next`. -/
def mergedArena (arena : Vector Node 509) (live : List Nat) (next : Nat) : Vector Node 509 :=
  arena.setIfInBounds next (joinNode arena (smallestOf arena live) (secondOf arena live))

/-- The queue after a pass: without the two extracted nodes, with the record that joins them. -/
def mergedQueue (arena : Vector Node 509) (live : List Nat) (next : Nat) : List Nat :=
  (live.erase (smallestOf arena live)).erase (secondOf arena live) ++ [next]

theorem mergeLoop_singleton (fuel : Nat) (arena : Vector Node 509) (i next : Nat) :
    mergeLoop fuel arena [i] next = (arena, i) := by
  cases fuel <;> rfl

theorem secondOf_mem_erase (arena : Vector Node 509) {live : List Nat} (h : 2 ≤ live.length) :
    secondOf arena live ∈ live.erase (smallestOf arena live) := by
  refine smallestOf_mem arena (List.ne_nil_of_length_pos ?_)
  rw [List.length_erase_of_mem (smallestOf_mem_of_two arena h)]
  omega

theorem length_mergedQueue (arena : Vector Node 509) {live : List Nat} (next : Nat) (h : 2 ≤ live.length) :
    (mergedQueue arena live next).length = live.length - 1 := by
  rw [mergedQueue, List.length_append, List.length_erase_of_mem (secondOf_mem_erase arena h),
    List.length_erase_of_mem (smallestOf_mem_of_two arena h), List.length_singleton]
  omega

/-- With two nodes or more in the queue the loop makes one pass and goes on. -/
theorem mergeLoop_pass (fuel : Nat) (arena : Vector Node 509) {live : List Nat} (next : Nat) (h : 2 ≤ live.length) :
    mergeLoop (fuel + 1) arena live next =
      mergeLoop fuel (mergedArena arena live next) (mergedQueue arena live next) (next + 1) := by
  obtain ⟨k, rest, herase⟩ := List.exists_cons_of_ne_nil (List.ne_nil_of_mem (secondOf_mem_erase arena h))
  obtain _ | ⟨i, _ | ⟨j, live⟩⟩ := live
  · simp at h
  · simp at h
  · rw [smallestOf] at herase
    simp only [mergeLoop, mergedArena, mergedQueue, secondOf, smallestOf, herase]

theorem mergedArena_keeps (arena : Vector Node 509) (live : List Nat) {next i : Nat} (h : i < next) :
    nodeAt (mergedArena arena live next) i = nodeAt arena i := nodeAt_set_ne h.ne' _

theorem mergedArena_next (arena : Vector Node 509) (live : List Nat) {next : Nat} (h : next < 509) :
    nodeAt (mergedArena arena live next) next = joinNode arena (smallestOf arena live) (secondOf arena live) :=
  nodeAt_set_same h _

theorem mem_mergedQueue {arena : Vector Node 509} {live : List Nat} (hnodup : live.Nodup) (next j : Nat) :
    j ∈ mergedQueue arena live next ↔
      (j ∈ live ∧ j ≠ smallestOf arena live ∧ j ≠ secondOf arena live) ∨ j = next := by
  rw [mergedQueue, List.mem_append, List.mem_singleton, (hnodup.erase _).mem_erase_iff, hnodup.mem_erase_iff]
  tauto

theorem nodup_mergedQueue {arena : Vector Node 509} {live : List Nat} {next : Nat} (hnodup : live.Nodup)
    (hnext : next ∉ live) : (mergedQueue arena live next).Nodup := by
  refine List.Nodup.append ((hnodup.erase _).erase _) (List.nodup_singleton _) (List.disjoint_singleton.mpr fun hmem => ?_)
  exact hnext (List.mem_of_mem_erase (List.mem_of_mem_erase hmem))

/-! ## What each record joins -/

/-- Record `j` is a child of record `i`. -/
def IsChild (arena : Vector Node 509) (j i : Nat) : Prop :=
  (nodeAt arena i).left.toNat = j ∨ (nodeAt arena i).right.toNat = j

/-- Record `j` is in the queue when record `i` is made: it is an earlier one, and no record from `n` on has taken it. -/
def Queued (n : Nat) (arena : Vector Node 509) (i j : Nat) : Prop :=
  j < i ∧ ∀ m, n ≤ m → m < i → ¬ IsChild arena j m

/-- Record `i` joins `l` on the left and `r` on the right (42_tree_builder.md R131, R136). -/
def IsJoin (arena : Vector Node 509) (i l r : Nat) : Prop :=
  (nodeAt arena i).left.toNat = l ∧ (nodeAt arena i).right.toNat = r ∧
  (nodeAt arena i).kind = .internal ∧ (nodeAt arena i).sym = 0 ∧
  (nodeAt arena i).weight.toNat = (nodeAt arena l).weight.toNat + (nodeAt arena r).weight.toNat ∧
  (nodeAt arena i).rep.toNat = min (nodeAt arena l).rep.toNat (nodeAt arena r).rep.toNat

/-- `l`, then `r`, are the two smallest keys of the queue when record `i` is made (42_tree_builder.md R135). -/
def SmallestQueued (n : Nat) (arena : Vector Node 509) (i l r : Nat) : Prop :=
  Queued n arena i l ∧ Queued n arena i r ∧ (nodeAt arena l).before (nodeAt arena r) = true ∧
  ∀ j, j ≠ l → j ≠ r → Queued n arena i j → (nodeAt arena r).before (nodeAt arena j) = true

/-- Each record from `n` up to `next` joins the two smallest keys of the queue at its time, the smaller on the left. -/
def RecordsJoin (n : Nat) (arena : Vector Node 509) (next : Nat) : Prop :=
  ∀ i, n ≤ i → i < next → ∃ l r, IsJoin arena i l r ∧ SmallestQueued n arena i l r

theorem IsChild.congr {a₁ a₂ : Vector Node 509} {i j : Nat} (h : nodeAt a₁ i = nodeAt a₂ i) :
    IsChild a₁ j i ↔ IsChild a₂ j i := by
  rw [IsChild, IsChild, h]

theorem IsJoin.congr {a₁ a₂ : Vector Node 509} {i l r : Nat} (hi : nodeAt a₁ i = nodeAt a₂ i)
    (hl : nodeAt a₁ l = nodeAt a₂ l) (hr : nodeAt a₁ r = nodeAt a₂ r) (h : IsJoin a₁ i l r) : IsJoin a₂ i l r := by
  rwa [IsJoin, ← hi, ← hl, ← hr]

theorem Queued.congr {n : Nat} {a₁ a₂ : Vector Node 509} {i j : Nat} (h : ∀ k < i, nodeAt a₁ k = nodeAt a₂ k) :
    Queued n a₁ i j ↔ Queued n a₂ i j := by
  have hchild (m : Nat) (hm : m < i) : IsChild a₁ j m ↔ IsChild a₂ j m := IsChild.congr (h m hm)
  exact and_congr_right fun _ => forall₃_congr fun m _ hm => (hchild m hm).not

/-- The two smallest keys are told by the records made so far. -/
theorem SmallestQueued.congr {n : Nat} {a₁ a₂ : Vector Node 509} {i l r : Nat}
    (h : ∀ k < i, nodeAt a₁ k = nodeAt a₂ k) (hs : SmallestQueued n a₁ i l r) : SmallestQueued n a₂ i l r := by
  have hqueued (j : Nat) : Queued n a₁ i j ↔ Queued n a₂ i j := Queued.congr h
  obtain ⟨hl, hr, hleft, hright⟩ := hs
  have hnode (j : Nat) (hj : Queued n a₁ i j) : nodeAt a₁ j = nodeAt a₂ j := h j hj.1
  rw [hnode l hl, hnode r hr] at hleft
  refine ⟨(hqueued l).mp hl, (hqueued r).mp hr, hleft, fun j hjl hjr hj => ?_⟩
  rw [← hqueued] at hj
  rw [← hnode r hr, ← hnode j hj]
  exact hright j hjl hjr hj

theorem RecordsJoin.congr {n : Nat} {a₁ a₂ : Vector Node 509} {next : Nat} (h : ∀ k < next, nodeAt a₁ k = nodeAt a₂ k)
    (hjoin : RecordsJoin n a₁ next) : RecordsJoin n a₂ next := by
  intro i hn hi
  obtain ⟨l, r, hj, hs⟩ := hjoin i hn hi
  obtain ⟨⟨hl, -⟩, ⟨hr, -⟩, -⟩ := id hs
  exact ⟨l, r, hj.congr (h i hi) (h l (hl.trans hi)) (h r (hr.trans hi)), hs.congr fun k hk => h k (hk.trans hi)⟩

theorem IsJoin.isChild_iff {arena : Vector Node 509} {i l r j : Nat} (h : IsJoin arena i l r) :
    IsChild arena j i ↔ j = l ∨ j = r := by
  obtain ⟨hl, hr, -⟩ := h
  rw [IsChild, hl, hr, eq_comm, eq_comm (a := r)]

/-- The children of a joined record are earlier ones. -/
theorem RecordsJoin.child_lt {n : Nat} {arena : Vector Node 509} {next i j : Nat} (h : RecordsJoin n arena next)
    (hn : n ≤ i) (hi : i < next) (hj : IsChild arena j i) : j < i := by
  obtain ⟨l, r, hjoin, ⟨hl, -⟩, ⟨hr, -⟩, -⟩ := h i hn hi
  obtain rfl | rfl := hjoin.isChild_iff.mp hj
  · exact hl
  · exact hr

/-- Making record `i` takes its two children from the queue and puts `i` in it. -/
theorem RecordsJoin.queued_succ {n : Nat} {arena : Vector Node 509} {i l r j : Nat} (h : RecordsJoin n arena (i + 1))
    (hn : n ≤ i) (hjoin : IsJoin arena i l r) :
    Queued n arena (i + 1) j ↔ (Queued n arena i j ∧ j ≠ l ∧ j ≠ r) ∨ j = i := by
  constructor
  · rintro ⟨hlt, huntaken⟩
    obtain hlt | rfl := Nat.lt_succ_iff_lt_or_eq.mp hlt
    · have hj := huntaken i hn (Nat.lt_succ_self i)
      rw [hjoin.isChild_iff, not_or] at hj
      exact .inl ⟨⟨hlt, fun m hm hmi => huntaken m hm (Nat.lt_succ_of_lt hmi)⟩, hj⟩
    · exact .inr rfl
  · rintro (⟨⟨hlt, huntaken⟩, hjl, hjr⟩ | rfl)
    · refine ⟨Nat.lt_succ_of_lt hlt, fun m hm hmi => ?_⟩
      obtain hmi | rfl := Nat.lt_succ_iff_lt_or_eq.mp hmi
      · exact huntaken m hm hmi
      · rw [hjoin.isChild_iff]
        exact not_or.mpr ⟨hjl, hjr⟩
    · refine ⟨Nat.lt_succ_self j, fun m hm hmi hc => ?_⟩
      have := h.child_lt hm hmi hc
      omega

/-! ## The queue -/

/-- `live` lists, each once, the nodes in the queue when record `next` is made. -/
def IsQueue (n : Nat) (arena : Vector Node 509) (live : List Nat) (next : Nat) : Prop :=
  live.Nodup ∧ ∀ j, j ∈ live ↔ Queued n arena next j

/-- The sum of the weights in the queue. -/
def queueWeight (arena : Vector Node 509) (live : List Nat) : Nat :=
  (live.map fun i => (nodeAt arena i).weight.toNat).sum

section
variable {n : Nat} {arena : Vector Node 509} {live : List Nat} {next : Nat}

theorem IsQueue.lt_of_mem (h : IsQueue n arena live next) {i : Nat} (hi : i ∈ live) : i < next := by
  obtain ⟨-, hmem⟩ := h
  exact ((hmem i).mp hi).1

/-- What a pass extracts are the two smallest keys. -/
theorem IsQueue.smallestQueued (h : IsQueue n arena live next) (hreps : RepsDiffer arena live) (hlen : 2 ≤ live.length) :
    SmallestQueued n arena next (smallestOf arena live) (secondOf arena live) := by
  obtain ⟨hnodup, hmem⟩ := h
  have hfirst := smallestOf_mem_of_two arena hlen
  obtain ⟨hne, hsecond⟩ := hnodup.mem_erase_iff.mp (secondOf_mem_erase arena hlen)
  have hreps' : RepsDiffer arena (live.erase (smallestOf arena live)) :=
    fun i hi j hj => hreps i (List.mem_of_mem_erase hi) j (List.mem_of_mem_erase hj)
  refine ⟨(hmem _).mp hfirst, (hmem _).mp hsecond, smallestOf_before hreps hsecond hne, fun j hjl hjr hj => ?_⟩
  exact smallestOf_before hreps' (hnodup.mem_erase_iff.mpr ⟨hjl, (hmem j).mpr hj⟩) hjr

/-- The queue after a pass is the queue of the next record. -/
theorem IsQueue.pass (h : IsQueue n arena live next) (hn : n ≤ next)
    (hjoin : IsJoin (mergedArena arena live next) next (smallestOf arena live) (secondOf arena live))
    (hall : RecordsJoin n (mergedArena arena live next) (next + 1)) :
    IsQueue n (mergedArena arena live next) (mergedQueue arena live next) (next + 1) := by
  have hnew : next ∉ live := fun hm => lt_irrefl _ (h.lt_of_mem hm)
  obtain ⟨hnodup, hmem⟩ := h
  refine ⟨nodup_mergedQueue hnodup hnew, fun j => ?_⟩
  rw [mem_mergedQueue hnodup, hall.queued_succ hn hjoin, hmem,
    Queued.congr fun k hk => mergedArena_keeps arena live hk]

/-- The joined record carries the symbol of a node that leaves the queue, so the symbols still differ. -/
theorem RepsDiffer.pass (h : RepsDiffer arena live) (hqueue : IsQueue n arena live next) (hlen : 2 ≤ live.length)
    (hnext : next < 509) : RepsDiffer (mergedArena arena live next) (mergedQueue arena live next) := by
  have hsecond : secondOf arena live ∈ live := List.mem_of_mem_erase (secondOf_mem_erase arena hlen)
  have hother (i : Nat) (hi : i ∈ live) : nodeAt (mergedArena arena live next) i = nodeAt arena i :=
    mergedArena_keeps arena live (hqueue.lt_of_mem hi)
  have hnew (i : Nat) (hi : i ∈ live) (hi1 : i ≠ smallestOf arena live) (hi2 : i ≠ secondOf arena live) :
      (nodeAt arena i).rep ≠ (nodeAt (mergedArena arena live next) next).rep := by
    intro he
    rw [mergedArena_next arena live hnext] at he
    obtain hrep | hrep := joinNode_rep_cases arena (smallestOf arena live) (secondOf arena live)
    · exact hi1 (h i hi _ (smallestOf_mem_of_two arena hlen) (he.trans hrep))
    · exact hi2 (h i hi _ hsecond (he.trans hrep))
  intro i hi j hj he
  rw [mem_mergedQueue hqueue.1] at hi hj
  obtain ⟨hi, hi1, hi2⟩ | rfl := hi <;> obtain ⟨hj, hj1, hj2⟩ | rfl := hj
  · rw [hother i hi, hother j hj] at he
    exact h i hi j hj he
  · rw [hother i hi] at he
    exact absurd he (hnew i hi hi1 hi2)
  · rw [hother j hj] at he
    exact absurd he.symm (hnew j hj hj1 hj2)
  · rfl

/-- The two extracted nodes' weights apart from the rest. -/
theorem queueWeight_split (arena : Vector Node 509) (hlen : 2 ≤ live.length) :
    (nodeAt arena (smallestOf arena live)).weight.toNat + ((nodeAt arena (secondOf arena live)).weight.toNat +
      queueWeight arena ((live.erase (smallestOf arena live)).erase (secondOf arena live))) = queueWeight arena live := by
  have hsecond := List.sum_map_erase (fun i => (nodeAt arena i).weight.toNat) (secondOf_mem_erase arena hlen)
  have hfirst := List.sum_map_erase (fun i => (nodeAt arena i).weight.toNat) (smallestOf_mem_of_two arena hlen)
  exact (congrArg _ hsecond).trans hfirst

/-- A joined record's weight does not wrap where the sum of the queue's weights is a word. -/
theorem joinNode_weight (hlen : 2 ≤ live.length) (hweight : queueWeight arena live < 2 ^ 32) :
    (joinNode arena (smallestOf arena live) (secondOf arena live)).weight.toNat =
      (nodeAt arena (smallestOf arena live)).weight.toNat + (nodeAt arena (secondOf arena live)).weight.toNat := by
  have hsplit := queueWeight_split arena hlen
  rw [joinNode, BitVec.toNat_add, Nat.mod_eq_of_lt (by omega)]

/-- A pass leaves the sum of the queue's weights as it was. -/
theorem queueWeight_pass (hqueue : IsQueue n arena live next) (hlen : 2 ≤ live.length) (hnext : next < 509)
    (hweight : queueWeight arena live < 2 ^ 32) :
    queueWeight (mergedArena arena live next) (mergedQueue arena live next) = queueWeight arena live := by
  have hrest : queueWeight (mergedArena arena live next) ((live.erase (smallestOf arena live)).erase (secondOf arena live)) =
      queueWeight arena ((live.erase (smallestOf arena live)).erase (secondOf arena live)) := by
    refine congrArg List.sum (List.map_congr_left fun i hi => ?_)
    rw [mergedArena_keeps arena live (hqueue.lt_of_mem (List.mem_of_mem_erase (List.mem_of_mem_erase hi)))]
  have hnew : queueWeight (mergedArena arena live next) [next] =
      (nodeAt arena (smallestOf arena live)).weight.toNat + (nodeAt arena (secondOf arena live)).weight.toNat := by
    rw [queueWeight, List.map_singleton, List.sum_singleton, mergedArena_next arena live hnext, joinNode_weight hlen hweight]
  rw [← queueWeight_split arena hlen, ← hrest, mergedQueue, queueWeight, List.map_append, List.sum_append, ← queueWeight,
    ← queueWeight, hnew]
  omega

/-- The record a pass makes joins the two extracted nodes. -/
theorem isJoin_next (hqueue : IsQueue n arena live next) (hlen : 2 ≤ live.length) (hnext : next < 509)
    (hweight : queueWeight arena live < 2 ^ 32) :
    IsJoin (mergedArena arena live next) next (smallestOf arena live) (secondOf arena live) := by
  have hl := hqueue.lt_of_mem (smallestOf_mem_of_two arena hlen)
  have hr := hqueue.lt_of_mem (List.mem_of_mem_erase (secondOf_mem_erase arena hlen))
  rw [IsJoin, mergedArena_next arena live hnext, mergedArena_keeps arena live hl, mergedArena_keeps arena live hr]
  refine ⟨?_, ?_, rfl, rfl, joinNode_weight hlen hweight, joinNode_rep_toNat arena _ _⟩
  · exact Nat.mod_eq_of_lt (hl.trans (hnext.trans (by norm_num)))
  · exact Nat.mod_eq_of_lt (hr.trans (hnext.trans (by norm_num)))

end

/-! ## What the loop keeps -/

/-- The counted symbols' leaves stand first, in symbol order (42_tree_builder.md R135). -/
def LeavesFirst (s : State) (arena : Vector Node 509) : Prop :=
  ∀ (k : Nat) (b : Byte), s.counted[k]? = some b → nodeAt arena k = leafNode b (s.histAt b)

/-- The loop's invariant when it is about to make record `next`, with `live` as its queue. The last two parts count: each
pass takes one node from the queue and makes one record. -/
def MergeInv (s : State) (arena : Vector Node 509) (live : List Nat) (next : Nat) : Prop :=
  LeavesFirst s arena ∧ RecordsJoin s.counted.length arena next ∧ IsQueue s.counted.length arena live next ∧
  RepsDiffer arena live ∧ queueWeight arena live = s.total.toNat ∧
  s.counted.length ≤ next ∧ live.length + next = 2 * s.counted.length

section
variable {s : State} {arena : Vector Node 509} {live : List Nat} {next : Nat}

/-- One pass keeps the invariant. -/
theorem MergeInv.pass (h : MergeInv s arena live next) (hlen : 2 ≤ live.length) (hnext : next < 509) :
    MergeInv s (mergedArena arena live next) (mergedQueue arena live next) (next + 1) := by
  obtain ⟨hleaves, hjoin, hqueue, hreps, hweight, hle, hsize⟩ := h
  have hword : queueWeight arena live < 2 ^ 32 := hweight ▸ s.total.isLt
  have hkeep (i : Nat) (hi : i < next) : nodeAt arena i = nodeAt (mergedArena arena live next) i :=
    (mergedArena_keeps arena live hi).symm
  have hnew := isJoin_next hqueue hlen hnext hword
  have hall : RecordsJoin s.counted.length (mergedArena arena live next) (next + 1) := by
    intro i hn hi
    obtain hi | rfl := Nat.lt_succ_iff_lt_or_eq.mp hi
    · exact hjoin.congr hkeep i hn hi
    · exact ⟨_, _, hnew, (hqueue.smallestQueued hreps hlen).congr hkeep⟩
  refine ⟨fun k b hk => ?_, hall, hqueue.pass hle hnew hall, hreps.pass hqueue hlen hnext,
    (queueWeight_pass hqueue hlen hnext hword).trans hweight, Nat.le_succ_of_le hle, ?_⟩
  · rw [← hkeep k ((List.getElem?_eq_some_iff.mp hk).1.trans_le hle), hleaves k b hk]
  · rw [length_mergedQueue arena next hlen]
    omega

/-- With one node left in the queue the loop has made its last record. -/
theorem MergeInv.next_eq {i : Nat} (h : MergeInv s arena [i] next) : next = 2 * s.counted.length - 1 := by
  obtain ⟨-, -, -, -, -, -, hsize⟩ := h
  rw [List.length_singleton] at hsize
  omega

/-- The loop, with fuel enough, ends with one node in the queue and the invariant kept. -/
theorem mergeLoop_inv {fuel : Nat} (h : MergeInv s arena live next) (hlive : 1 ≤ live.length) (hfuel : live.length ≤ fuel + 1)
    (hn : s.counted.length ≤ 255) :
    MergeInv s (mergeLoop fuel arena live next).1 [(mergeLoop fuel arena live next).2] (2 * s.counted.length - 1) := by
  induction fuel generalizing arena live next with
  | zero =>
    obtain ⟨i, rfl⟩ := List.length_eq_one_iff.mp (by omega : live.length = 1)
    rw [mergeLoop_singleton, ← h.next_eq]
    exact h
  | succ fuel ih =>
    by_cases hone : live.length = 1
    · obtain ⟨i, rfl⟩ := List.length_eq_one_iff.mp hone
      rw [mergeLoop_singleton, ← h.next_eq]
      exact h
    · have hlen : 2 ≤ live.length := by omega
      have hlength := length_mergedQueue arena next hlen
      obtain ⟨-, -, -, -, -, -, hsize⟩ := id h
      rw [mergeLoop_pass fuel arena next hlen]
      exact ih (h.pass hlen (by omega)) (by omega) (by omega)

/-- The node the loop ends with is the last record it made: every earlier one has a parent. -/
theorem MergeInv.root_eq {root : Nat} (h : MergeInv s arena [root] next) : root = 2 * s.counted.length - 2 := by
  have hnext := h.next_eq
  obtain ⟨-, hjoin, ⟨-, hmem⟩, -, -, -, hsize⟩ := h
  rw [List.length_singleton] at hsize
  refine (List.mem_singleton.mp ((hmem _).mpr ⟨by omega, fun m hm hlt hc => ?_⟩)).symm
  have := hjoin.child_lt hm hlt hc
  omega

theorem MergeInv.root_weight {root : Nat} (h : MergeInv s arena [root] next) : (nodeAt arena root).weight = s.total := by
  obtain ⟨-, -, -, -, hweight, -⟩ := h
  rw [queueWeight, List.map_singleton, List.sum_singleton] at hweight
  exact BitVec.eq_of_toNat_eq hweight

end

end Sys2Proof.Machine
end

section
/-! SUPPORT. BuildTree from its leaves to its root, and what its arena depends on (spec/42_tree_builder.md R134 to R140). -/

namespace Sys2Proof.Machine

open Sys2Proof

/-! ## The leaves -/

theorem leavesOf_histAt (s : State) : leavesOf s.histAt = s.counted.map fun b => leafNode b (s.histAt b) := rfl

theorem length_leavesOf (s : State) : (leavesOf s.histAt).length = s.counted.length := by
  rw [leavesOf_histAt, List.length_map]

theorem nodup_counted (s : State) : s.counted.Nodup := nodup_allBytes.filter _

/-- The symbols that were not counted add nothing to a sum of counts. -/
theorem sum_counted (s : State) :
    (s.counted.map fun b => (s.histAt b).toNat).sum = (allBytes.map fun b => (s.histAt b).toNat).sum := by
  unfold State.counted
  induction allBytes with
  | nil => rfl
  | cons b l ih =>
    by_cases hb : s.histAt b = 0
    · rw [List.filter_cons_of_neg (by simp [hb]), List.map_cons, List.sum_cons, ih, hb]
      simp
    · rw [List.filter_cons_of_pos (by simpa using hb), List.map_cons, List.sum_cons, ih, List.map_cons, List.sum_cons]

theorem leavesFirst_start {s : State} (hs : SpecInv s) (arena : Vector Node 509) :
    LeavesFirst s (writeFrom arena 0 (leavesOf s.histAt)) := by
  intro k b hk
  have hn := counted_length_le hs.no_delimiter
  obtain ⟨hlt, rfl⟩ := List.getElem?_eq_some_iff.mp hk
  rw [nodeAt_writeFrom (by rwa [length_leavesOf]), if_pos (by omega)]
  simp only [leavesOf_histAt, List.getElem_map]

/-! ## BuildTree's two cases -/

/-- One leaf: the synthetic root over it (42_tree_builder.md R137). -/
theorem buildTree_sole {hist : Byte → Word} (h : (leavesOf hist).length = 1) (arena : Vector Node 509) :
    buildTree hist arena =
      { arena := (writeFrom arena 0 (leavesOf hist)).setIfInBounds 1
          (soleRoot (nodeAt (writeFrom arena 0 (leavesOf hist)) 0))
        root := 1, size := 1 } := if_pos h

/-- Otherwise: the merge loop over the leaves (42_tree_builder.md R135). -/
theorem buildTree_merges {hist : Byte → Word} (h : (leavesOf hist).length ≠ 1) (arena : Vector Node 509) :
    buildTree hist arena =
      { arena := (mergeLoop (leavesOf hist).length (writeFrom arena 0 (leavesOf hist)) (List.range (leavesOf hist).length)
          (leavesOf hist).length).1
        root := (mergeLoop (leavesOf hist).length (writeFrom arena 0 (leavesOf hist)) (List.range (leavesOf hist).length)
          (leavesOf hist).length).2
        size := (leavesOf hist).length } := if_neg h

/-! ## The loop's start and end -/

/-- The loop starts with the leaves in the queue and no record joined. -/
theorem mergeInv_start {s : State} (hs : SpecInv s) (arena : Vector Node 509) :
    MergeInv s (writeFrom arena 0 (leavesOf s.histAt)) (List.range s.counted.length) s.counted.length := by
  have hleaf (k : Nat) (hk : k < s.counted.length) :
      nodeAt (writeFrom arena 0 (leavesOf s.histAt)) k = leafNode s.counted[k] (s.histAt s.counted[k]) :=
    leavesFirst_start hs arena k _ (List.getElem?_eq_getElem hk)
  refine ⟨leavesFirst_start hs arena, fun i hi hin => absurd hi (by omega), ⟨List.nodup_range, fun j => ?_⟩,
    fun i hi j hj he => ?_, ?_, le_rfl, by rw [List.length_range]; omega⟩
  · rw [List.mem_range]
    exact ⟨fun hj => ⟨hj, fun m hm hmn => absurd hm (by omega)⟩, fun ⟨hj, _⟩ => hj⟩
  · rw [List.mem_range] at hi hj
    rw [hleaf i hi, hleaf j hj] at he
    exact (nodup_counted s).getElem_inj_iff.mp he
  · rw [hs.total_eq_sum, ← sum_counted]
    refine congrArg List.sum (List.ext_getElem (by simp) fun k hk _ => ?_)
    rw [List.length_map, List.length_range] at hk
    simp [hleaf k hk, leafNode]

/-- The tree of two symbols or more, once built. -/
theorem buildTree_inv {s : State} (hs : SpecInv s) (hn : 2 ≤ s.counted.length) (arena : Vector Node 509) :
    MergeInv s (buildTree s.histAt arena).arena [(buildTree s.histAt arena).root] (2 * s.counted.length - 1) := by
  rw [buildTree_merges (by rw [length_leavesOf]; omega), length_leavesOf]
  exact mergeLoop_inv (mergeInv_start hs arena) (by rw [List.length_range]; omega) (by rw [List.length_range]; omega)
    (counted_length_le hs.no_delimiter)

theorem buildTree_root {s : State} (hs : SpecInv s) (hn : 1 ≤ s.counted.length) (arena : Vector Node 509) :
    (buildTree s.histAt arena).root = if s.counted.length = 1 then 1 else 2 * s.counted.length - 2 := by
  split
  · rw [buildTree_sole (by rwa [length_leavesOf])]
  · exact (buildTree_inv hs (by omega) arena).root_eq

theorem buildTree_leavesFirst {s : State} (hs : SpecInv s) (hn : 1 ≤ s.counted.length) (arena : Vector Node 509) :
    LeavesFirst s (buildTree s.histAt arena).arena := by
  by_cases hone : s.counted.length = 1
  · intro k b hk
    have hlt := (List.getElem?_eq_some_iff.mp hk).1
    rw [buildTree_sole (by rwa [length_leavesOf]), nodeAt_set_ne (by omega)]
    exact leavesFirst_start hs arena k b hk
  · obtain ⟨hleaves, -⟩ := buildTree_inv hs (by omega) arena
    exact hleaves

/-- The synthetic root weighs TOTAL. -/
theorem buildTree_soleRoot {s : State} (hs : SpecInv s) (hone : s.counted.length = 1) (arena : Vector Node 509) :
    nodeAt (buildTree s.histAt arena).arena 1 =
      { kind := .internal, weight := s.total, rep := (nodeAt (buildTree s.histAt arena).arena 0).rep, sym := 0, left := 0
        right := Config.nil } := by
  obtain ⟨b, hb⟩ := List.length_eq_one_iff.mp hone
  have htotal : s.total = s.histAt b := by
    refine BitVec.eq_of_toNat_eq ?_
    simp [hs.total_eq_sum, ← sum_counted, hb]
  have hleaf := leavesFirst_start hs arena 0 b (by simp [hb])
  rw [buildTree_sole (by rwa [length_leavesOf]), nodeAt_set_same (by decide), nodeAt_set_ne (by decide), soleRoot, hleaf,
    leafNode, htotal]

/-! ## What the arena depends on -/

theorem mergeLoop_zero (arena : Vector Node 509) (i : Nat) (live : List Nat) (next : Nat) :
    mergeLoop 0 arena (i :: live) next = (arena, i) := by
  cases live <;> rfl

/-- The loop reads only the records below `next`, so arenas that agree on them give the same root and agree up to it. -/
theorem mergeLoop_congr {fuel : Nat} {a₁ a₂ : Vector Node 509} {live : List Nat} {next : Nat}
    (hagree : ∀ i < next, nodeAt a₁ i = nodeAt a₂ i) (hlive : ∀ i ∈ live, i < next) (hne : live ≠ []) :
    (mergeLoop fuel a₁ live next).2 = (mergeLoop fuel a₂ live next).2 ∧
    ∀ i ≤ (mergeLoop fuel a₁ live next).2,
      nodeAt (mergeLoop fuel a₁ live next).1 i = nodeAt (mergeLoop fuel a₂ live next).1 i := by
  induction fuel generalizing a₁ a₂ live next with
  | zero =>
    obtain ⟨i, live, rfl⟩ := List.exists_cons_of_ne_nil hne
    rw [mergeLoop_zero, mergeLoop_zero]
    exact ⟨rfl, fun j hj => hagree j (hj.trans_lt (hlive i (by simp)))⟩
  | succ fuel ih =>
    by_cases hlen : 2 ≤ live.length
    · have hfirst : smallestOf a₁ live = smallestOf a₂ live := smallestOf_congr fun j hj => hagree j (hlive j hj)
      have hsecond : secondOf a₁ live = secondOf a₂ live := by
        rw [secondOf, secondOf, ← hfirst]
        exact smallestOf_congr fun j hj => hagree j (hlive j (List.mem_of_mem_erase hj))
      have hmem₁ := hlive _ (smallestOf_mem a₁ hne)
      have hmem₂ := hlive _ (List.mem_of_mem_erase (secondOf_mem_erase a₁ hlen))
      have hjoin : joinNode a₁ (smallestOf a₁ live) (secondOf a₁ live) =
          joinNode a₂ (smallestOf a₂ live) (secondOf a₂ live) := by
        rw [← hfirst, ← hsecond]
        simp only [joinNode, hagree _ hmem₁, hagree _ hmem₂]
      have hqueue : mergedQueue a₁ live next = mergedQueue a₂ live next := by
        rw [mergedQueue, mergedQueue, hfirst, hsecond]
      rw [mergeLoop_pass fuel a₁ next hlen, mergeLoop_pass fuel a₂ next hlen, ← hqueue]
      refine ih ?_ (fun i hi => ?_) (by simp [mergedQueue])
      · rw [mergedArena, mergedArena, hjoin]
        exact nodeAt_set_congr hagree _
      · obtain hi | hi := List.mem_append.mp hi
        · exact Nat.lt_succ_of_lt (hlive i (List.mem_of_mem_erase (List.mem_of_mem_erase hi)))
        · rw [List.mem_singleton.mp hi]
          exact Nat.lt_succ_self next
    · obtain ⟨i, rfl⟩ := List.length_eq_one_iff.mp
        (by have := List.length_pos_of_ne_nil hne; omega : live.length = 1)
      rw [mergeLoop_singleton, mergeLoop_singleton]
      exact ⟨rfl, fun j hj => hagree j (hj.trans_lt (hlive i (by simp)))⟩

/-- BuildTree's root and the records up to it depend on the counts alone, not on what the arena held. -/
theorem buildTree_congr {hist : Byte → Word} (hne : leavesOf hist ≠ []) (a₁ a₂ : Vector Node 509) :
    (buildTree hist a₁).root = (buildTree hist a₂).root ∧
    ∀ i ≤ (buildTree hist a₁).root, nodeAt (buildTree hist a₁).arena i = nodeAt (buildTree hist a₂).arena i := by
  have hleaves : ∀ i < (leavesOf hist).length,
      nodeAt (writeFrom a₁ 0 (leavesOf hist)) i = nodeAt (writeFrom a₂ 0 (leavesOf hist)) i := fun i hi => by
    rw [nodeAt_writeFrom hi, nodeAt_writeFrom hi]
  by_cases hone : (leavesOf hist).length = 1
  · rw [buildTree_sole hone, buildTree_sole hone, hleaves 0 (by omega)]
    rw [hone] at hleaves
    exact ⟨rfl, fun i hi => nodeAt_set_congr hleaves _ i (Nat.lt_succ_of_le hi)⟩
  · rw [buildTree_merges hone, buildTree_merges hone]
    refine mergeLoop_congr hleaves (fun i => List.mem_range.mp) ?_
    simpa [List.range_eq_nil] using hne

/-! ## BUILD as a command -/

/-- A BUILD that ends in E_BUILT found a counted text and wrote the tree. -/
theorem exec_build_built {s t : State} (he : exec .build s = .next t) (ht : t.phase = .eBuilt) :
    s.total ≠ 0 ∧ t.arena = (buildTree s.histAt s.arena).arena ∧
    t.root = BitVec.ofNat 9 (buildTree s.histAt s.arena).root ∧ t.tabn = BitVec.ofNat 8 s.counted.length := by
  rw [exec_eq_execute] at he
  obtain ⟨herror, -, rfl⟩ | ⟨-, rfl⟩ | ⟨-, rfl⟩ := execute_cases he
  · rw [retire_phase, herror] at ht
    contradiction
  · rw [retire_phase] at ht
    contradiction
  · by_cases h0 : s.total = 0
    · rw [retire_phase, perform, performBuild_empty h0] at ht
      contradiction
    · rw [perform, performBuild_eq h0, buildTree_size]
      exact ⟨h0, rfl, rfl, rfl⟩

end Sys2Proof.Machine
end

section
/-! PROOFS. The statements on the tree builder (spec/42_tree_builder.md R130 to R140). -/

namespace Sys2Proof.Machine

open Sys2Proof Sys2Proof.Claims

/-- Settles O16: BUILD's own check, then its effects; BuildTree's size is the number of counted symbols. -/
theorem buildCompletes : Obligations.BuildCompletes := by
  refine ⟨decode_encode .build, (sequenceExactlyOutsideLegalPhases .build).1, fun s hphase => ?_⟩
  have hexec : exec .build s = .next (retire (performBuild s)) := by
    rw [exec_eq_execute]
    refine execute_legal ((legal_iff_mem_legalPhases _ _).mpr ?_) fun herror => ?_
    · simpa [legalPhases] using hphase
    · simp [herror] at hphase
  refine ⟨fun h0 => ?_, fun h0 => ⟨_, hexec, ?_⟩⟩
  · rw [hexec, performBuild_empty h0]
    rfl
  · rw [performBuild_eq h0, buildTree_size]
    rfl

/-- Settles O17: the merge loop's invariant at its end; the sole root apart. -/
theorem buildMergesTheSmallestKeys : Obligations.BuildMergesTheSmallestKeys := by
  intro s t hs he ht n node isChild
  obtain ⟨h0, harena, hroot, -⟩ := exec_build_built he ht
  have hn : s.counted.length ≤ 255 := counted_length_le hs.no_delimiter
  have hpos : 1 ≤ s.counted.length := List.length_pos_of_ne_nil (counted_ne_nil hs.total_eq_sum h0)
  rw [buildTree_root hs hpos] at hroot
  refine ⟨fun k b hk => ?leaves, fun hone => ⟨?root, ?sole⟩, fun htwo => ?merged⟩
  case leaves =>
    simp only [node, harena]
    exact buildTree_leavesFirst hs hpos s.arena k b hk
  case root =>
    rw [hroot, if_pos hone]
    rfl
  case sole =>
    simp only [node, harena]
    exact buildTree_soleRoot hs hone s.arena
  case merged =>
    have hinv := buildTree_inv hs htwo s.arena
    have hrootNat : t.root.toNat = 2 * n - 2 := by
      rw [hroot, if_neg (by omega), BitVec.toNat_ofNat, Nat.mod_eq_of_lt (by omega)]
    rw [← harena, hinv.root_eq] at hinv
    refine ⟨hrootNat, hrootNat ▸ hinv.root_weight, fun i hi hle => ?_⟩
    obtain ⟨-, hjoin, -⟩ := hinv
    obtain ⟨l, r, ⟨rfl, rfl, hkind, hsym, hweight, hrep⟩, ⟨hl, hluntaken⟩, ⟨hr, hruntaken⟩, hleft, hright⟩ :=
      hjoin i hi (by omega)
    refine ⟨hkind, hsym, hl, hr, ?distinct, hweight, hrep, fun m hm hmi => ⟨hluntaken m hm hmi, hruntaken m hm hmi⟩, hleft,
      fun j hji hjl hjr huntaken => hright j hjl hjr ⟨hji, huntaken⟩⟩
    intro heq
    rw [heq, Node.before_iff_key_lt] at hleft
    exact lt_irrefl _ hleft

/-- Settles O18: the counts are the same and BuildTree reads nothing else. -/
theorem buildDependsOnHistAlone : Obligations.BuildDependsOnHistAlone := by
  intro s₁ s₂ t₁ t₂ hhist hs he₁ he₂ ht₁ ht₂
  obtain ⟨h0, harena₁, hroot₁, htabn₁⟩ := exec_build_built he₁ ht₁
  obtain ⟨-, harena₂, hroot₂, htabn₂⟩ := exec_build_built he₂ ht₂
  rw [histAt_congr hhist.symm] at harena₂ hroot₂
  rw [counted_congr hhist.symm] at htabn₂
  have hne : leavesOf s₁.histAt ≠ [] := by
    rw [leavesOf_histAt, ne_eq, List.map_eq_nil_iff]
    exact counted_ne_nil hs.total_eq_sum h0
  obtain ⟨hroot, hnodes⟩ := buildTree_congr hne s₁.arena s₂.arena
  refine ⟨htabn₁.trans htabn₂.symm, by rw [hroot₁, hroot₂, hroot], fun i hi => ?_⟩
  rw [hroot₁, BitVec.toNat_ofNat] at hi
  rw [harena₁, harena₂]
  exact hnodes i (hi.trans (Nat.mod_le _ _))

end Sys2Proof.Machine
end

section
/-! SUPPORT. Codes as GEN's traversal lists them: how they part, where they lead, their lengths and their Kraft sum
(spec/43_code_table.md R151 to R158). -/

namespace Sys2Proof.Machine

open Sys2Proof Sys2Proof.Claims

/-! ## Codes that part -/

/-- Two codes part: `a` goes left where `b` goes right. -/
def PartsBefore (a b : Bits) : Prop := ∃ p x y, a = p ++ false :: x ∧ b = p ++ true :: y

theorem PartsBefore.not_prefix {a b : Bits} (h : PartsBefore a b) : ¬ a <+: b ∧ ¬ b <+: a := by
  obtain ⟨p, x, y, rfl, rfl⟩ := h
  simp [List.prefix_append_right_inj, List.cons_prefix_cons]

theorem PartsBefore.lex {a b : Bits} (h : PartsBefore a b) : List.Lex (fun x y : Bool => x = false ∧ y = true) a b := by
  obtain ⟨p, x, y, rfl, rfl⟩ := h
  exact List.Lex.append_left _ (List.Lex.rel ⟨rfl, rfl⟩) p

theorem PartsBefore.cons {a b : Bits} (h : PartsBefore a b) (i : Bool) : PartsBefore (i :: a) (i :: b) := by
  obtain ⟨p, x, y, rfl, rfl⟩ := h
  exact ⟨i :: p, x, y, rfl, rfl⟩

/-! ## The codes below an inner node -/

/-- The codes below an inner node from those below its children: left on 0, right on 1 (43_code_table.md R151). -/
def joinCodes (L R : List (Byte × Bits)) : List (Byte × Bits) :=
  L.map (fun e => (e.1, false :: e.2)) ++ R.map (fun e => (e.1, true :: e.2))

theorem mem_joinCodes {L R : List (Byte × Bits)} {e : Byte × Bits} (h : e ∈ joinCodes L R) :
    (∃ c, e.2 = false :: c ∧ (e.1, c) ∈ L) ∨ ∃ c, e.2 = true :: c ∧ (e.1, c) ∈ R := by
  obtain h | h := List.mem_append.mp h
  all_goals obtain ⟨e', he', rfl⟩ := List.mem_map.mp h
  · exact .inl ⟨e'.2, rfl, he'⟩
  · exact .inr ⟨e'.2, rfl, he'⟩

@[simp] theorem length_joinCodes (L R : List (Byte × Bits)) : (joinCodes L R).length = L.length + R.length :=
  List.length_append.trans (by rw [List.length_map, List.length_map])

@[simp] theorem map_fst_joinCodes (L R : List (Byte × Bits)) :
    (joinCodes L R).map Prod.fst = L.map Prod.fst ++ R.map Prod.fst :=
  List.map_append.trans (by simp [Function.comp_def])

theorem joinCodes_partBefore {L R : List (Byte × Bits)} (hL : L.Pairwise fun e f => PartsBefore e.2 f.2)
    (hR : R.Pairwise fun e f => PartsBefore e.2 f.2) : (joinCodes L R).Pairwise fun e f => PartsBefore e.2 f.2 := by
  refine List.pairwise_append.mpr ⟨List.pairwise_map.mpr (hL.imp fun h => h.cons false),
    List.pairwise_map.mpr (hR.imp fun h => h.cons true), fun e he f hf => ?_⟩
  obtain ⟨e, -, rfl⟩ := List.mem_map.mp he
  obtain ⟨f, -, rfl⟩ := List.mem_map.mp hf
  exact ⟨[], e.2, f.2, rfl, rfl⟩

/-! ## The traversal, whatever the arena holds -/

section
variable {arena : Vector Node 509} {i : ArenaIdx}

theorem visit_leaf (fuel : Nat) (path : Bits) (hi : i ≠ Config.nil) (hkind : (nodeAt arena i.toNat).kind = .leaf) :
    visit (fuel + 1) arena i path = [((nodeAt arena i.toNat).sym, path)] := by
  refine (if_neg hi).trans ?_
  simp only [hkind]

theorem visit_internal (fuel : Nat) (path : Bits) (hi : i ≠ Config.nil) (hkind : (nodeAt arena i.toNat).kind = .internal) :
    visit (fuel + 1) arena i path = visit fuel arena (nodeAt arena i.toNat).left (path ++ [false]) ++
      visit fuel arena (nodeAt arena i.toNat).right (path ++ [true]) := by
  refine (if_neg hi).trans ?_
  simp only [hkind]

/-- The traversal stops at NIL and at an unused record. -/
theorem visit_stop (fuel : Nat) (path : Bits) (h : i = Config.nil ∨ (nodeAt arena i.toNat).kind = .empty) :
    visit (fuel + 1) arena i path = [] := by
  by_cases hi : i = Config.nil
  · exact if_pos hi
  · refine (if_neg hi).trans ?_
    simp only [h.resolve_left hi]

/-- The three ways a record can be visited. -/
theorem visit_ways (arena : Vector Node 509) (i : ArenaIdx) :
    (i = Config.nil ∨ (nodeAt arena i.toNat).kind = .empty) ∨ (i ≠ Config.nil ∧ (nodeAt arena i.toNat).kind = .leaf) ∨
      (i ≠ Config.nil ∧ (nodeAt arena i.toNat).kind = .internal) := by
  cases (nodeAt arena i.toNat).kind <;> simp [em]

/-- The path to a record stands before the codes below it. -/
theorem visit_path (fuel : Nat) (arena : Vector Node 509) (i : ArenaIdx) (path : Bits) :
    visit fuel arena i path = (visit fuel arena i []).map fun e => (e.1, path ++ e.2) := by
  induction fuel generalizing i path with
  | zero => rfl
  | succ fuel ih =>
    obtain hstop | ⟨hi, hkind⟩ | ⟨hi, hkind⟩ := visit_ways arena i
    · rw [visit_stop fuel _ hstop, visit_stop fuel _ hstop, List.map_nil]
    · simp [visit_leaf fuel _ hi hkind]
    · rw [visit_internal fuel _ hi hkind, visit_internal fuel _ hi hkind, ih _ (path ++ [false]), ih _ (path ++ [true]),
        ih _ ([] ++ [false]), ih _ ([] ++ [true])]
      simp [Function.comp_def]

theorem visit_join (fuel : Nat) (hi : i ≠ Config.nil) (hkind : (nodeAt arena i.toNat).kind = .internal) :
    visit (fuel + 1) arena i [] = joinCodes (visit fuel arena (nodeAt arena i.toNat).left [])
      (visit fuel arena (nodeAt arena i.toNat).right []) := by
  rw [visit_internal fuel _ hi hkind, visit_path, visit_path fuel arena _ ([] ++ [true])]
  rfl

/-- From left to right each code parts before every later one. -/
theorem visit_partBefore (fuel : Nat) (arena : Vector Node 509) (i : ArenaIdx) :
    (visit fuel arena i []).Pairwise fun e f => PartsBefore e.2 f.2 := by
  induction fuel generalizing i with
  | zero => exact List.Pairwise.nil
  | succ fuel ih =>
    obtain hstop | ⟨hi, hkind⟩ | ⟨hi, hkind⟩ := visit_ways arena i
    · rw [visit_stop fuel _ hstop]
      exact List.Pairwise.nil
    · rw [visit_leaf fuel _ hi hkind]
      exact List.pairwise_singleton _ _
    · rw [visit_join fuel hi hkind]
      exact joinCodes_partBefore (ih _) (ih _)

/-- No code begins the code of another leaf (43_code_table.md R154). -/
theorem not_prefix_of_mem_visit {fuel : Nat} {e f : Byte × Bits} (he : e ∈ visit fuel arena i [])
    (hf : f ∈ visit fuel arena i []) (hne : e ≠ f) : ¬ e.2 <+: f.2 := by
  have hsymm : Std.Symm fun e f : Byte × Bits => ¬ e.2 <+: f.2 ∧ ¬ f.2 <+: e.2 := ⟨fun _ _ h => h.symm⟩
  exact (((visit_partBefore fuel arena i).imp PartsBefore.not_prefix).forall he hf hne).1

/-- A code leads to a leaf of its symbol. -/
theorem follow_of_mem_visit {fuel : Nat} {e : Byte × Bits} (he : e ∈ visit fuel arena i []) :
    (nodeAt arena (follow arena i e.2).toNat).kind = .leaf ∧ (nodeAt arena (follow arena i e.2).toNat).sym = e.1 := by
  induction fuel generalizing i e with
  | zero => exact absurd he List.not_mem_nil
  | succ fuel ih =>
    obtain hstop | ⟨hi, hkind⟩ | ⟨hi, hkind⟩ := visit_ways arena i
    · simp [visit_stop fuel _ hstop] at he
    · rw [visit_leaf fuel _ hi hkind, List.mem_singleton] at he
      rw [he]
      exact ⟨hkind, rfl⟩
    · rw [visit_join fuel hi hkind] at he
      obtain ⟨c, hc, hmem⟩ | ⟨c, hc, hmem⟩ := mem_joinCodes he <;> rw [hc] <;> exact ih hmem

end

/-! ## Complete codes -/

/-- What the codes below a record of a strict tree have in common: no code is as long as there are codes, none is empty unless
it is the only one, and the Kraft sum, scaled by any power of two that the codes must fit in, is 1 (43_code_table.md R155 to
R157). -/
def CompleteCode (L : List (Byte × Bits)) : Prop :=
  1 ≤ L.length ∧ (∀ e ∈ L, e.2.length < L.length ∧ (2 ≤ L.length → e.2 ≠ [])) ∧
  ∀ k, L.length ≤ k + 1 → (L.map fun e => 2 ^ (k - e.2.length)).sum = 2 ^ k

theorem completeCode_leaf (b : Byte) : CompleteCode [(b, [])] := by simp [CompleteCode]

theorem CompleteCode.join {L R : List (Byte × Bits)} (hL : CompleteCode L) (hR : CompleteCode R) :
    CompleteCode (joinCodes L R) := by
  obtain ⟨hLpos, hLcode, hLsum⟩ := hL
  obtain ⟨hRpos, hRcode, hRsum⟩ := hR
  rw [CompleteCode, length_joinCodes]
  refine ⟨by omega, fun e he => ?code, fun k hk => ?sum⟩
  case code =>
    obtain ⟨c, hc, hmem⟩ | ⟨c, hc, hmem⟩ := mem_joinCodes he
    · have hlt : c.length < L.length := (hLcode _ hmem).1
      rw [hc, List.length_cons]
      exact ⟨by omega, fun _ => List.cons_ne_nil _ _⟩
    · have hlt : c.length < R.length := (hRcode _ hmem).1
      rw [hc, List.length_cons]
      exact ⟨by omega, fun _ => List.cons_ne_nil _ _⟩
  case sum =>
    obtain ⟨k, rfl⟩ : ∃ j, k = j + 1 := ⟨k - 1, by omega⟩
    have hleft := hLsum k (by omega)
    have hright := hRsum k (by omega)
    simp only [joinCodes, List.map_append, List.map_map, List.sum_append, Function.comp_def, List.length_cons,
      Nat.add_sub_add_right]
    rw [hleft, hright, pow_succ]
    omega

end Sys2Proof.Machine
end

section
/-! SUPPORT. The tree BUILD leaves in the arena: the codes below each record, and that its leaves carry the counted symbols, each
once (spec/42_tree_builder.md R135 to R137). -/

namespace Sys2Proof.Machine

open Sys2Proof

/-! ## Leaves and joins as the traversal sees them -/

/-- The leaves below record `i` in the order of GEN's traversal, with their paths from `i`. -/
def codesBelow (arena : Vector Node 509) (i : Nat) : List (Byte × Bits) := codeTable arena (BitVec.ofNat 9 i)

section
variable {s : State} {arena : Vector Node 509}

theorem toNat_arenaIdx {i : Nat} (hi : i < 509) : (BitVec.ofNat 9 i).toNat = i := Nat.mod_eq_of_lt (by omega)

theorem arenaIdx_ne_nil {i : Nat} (hi : i < 509) : BitVec.ofNat 9 i ≠ Config.nil := by
  intro he
  rw [← toNat_arenaIdx hi, he] at hi
  exact absurd hi (by decide)

theorem LeavesFirst.visit (h : LeavesFirst s arena) {i : Nat} {b : Byte} (hb : s.counted[i]? = some b) (hi : i < 509)
    (fuel : Nat) : visit (fuel + 1) arena (BitVec.ofNat 9 i) [] = [(b, [])] := by
  have hnode : nodeAt arena (BitVec.ofNat 9 i).toNat = leafNode b (s.histAt b) := by rw [toNat_arenaIdx hi, h i b hb]
  rw [visit_leaf fuel _ (arenaIdx_ne_nil hi) (by rw [hnode]; rfl), hnode]
  rfl

theorem IsJoin.visit {i l r : Nat} (h : IsJoin arena i l r) (hi : i < 509) (fuel : Nat) :
    visit (fuel + 1) arena (BitVec.ofNat 9 i) [] =
      joinCodes (visit fuel arena (BitVec.ofNat 9 l) []) (visit fuel arena (BitVec.ofNat 9 r) []) := by
  obtain ⟨rfl, rfl, hkind, -⟩ := h
  rw [visit_join fuel (arenaIdx_ne_nil hi) (by rw [toNat_arenaIdx hi, hkind]), toNat_arenaIdx hi, BitVec.ofNat_toNat,
    BitVec.ofNat_toNat, BitVec.setWidth_eq, BitVec.setWidth_eq]

end

/-! ## The arena the merge loop leaves -/

section
variable {s : State} {arena : Vector Node 509} {last : Nat} (hleaves : LeavesFirst s arena) (hn : s.counted.length ≤ 255)
  (hjoin : RecordsJoin s.counted.length arena last) (hlast : last ≤ 509)
include hleaves hn hjoin hlast

/-- Children are earlier records, so the traversal of record `i` takes no more than `i + 1` levels. -/
theorem visit_eq_codesBelow {i : Nat} (hi : i < last) {fuel : Nat} (hfuel : i < fuel) :
    visit fuel arena (BitVec.ofNat 9 i) [] = codesBelow arena i := by
  suffices h : ∀ i < last, ∀ fuel fuel', i < fuel → i < fuel' →
      visit fuel arena (BitVec.ofNat 9 i) [] = visit fuel' arena (BitVec.ofNat 9 i) [] from
    h i hi fuel 512 hfuel (by omega)
  intro i
  induction i using Nat.strong_induction_on with
  | _ i ih =>
    intro hi fuel fuel' hfuel hfuel'
    obtain ⟨fuel, rfl⟩ : ∃ j, fuel = j + 1 := ⟨fuel - 1, by omega⟩
    obtain ⟨fuel', rfl⟩ : ∃ j, fuel' = j + 1 := ⟨fuel' - 1, by omega⟩
    by_cases hleaf : i < s.counted.length
    · have hb := List.getElem?_eq_getElem hleaf
      rw [hleaves.visit hb (by omega), hleaves.visit hb (by omega)]
    · obtain ⟨l, r, hlr, ⟨hl, -⟩, ⟨hr, -⟩, -⟩ := hjoin i (by omega) hi
      rw [hlr.visit (by omega), hlr.visit (by omega), ih l hl (by omega) fuel fuel' (by omega) (by omega),
        ih r hr (by omega) fuel fuel' (by omega) (by omega)]

theorem codesBelow_join {i l r : Nat} (hi : i < last) (hlr : IsJoin arena i l r) (hl : l < i) (hr : r < i) :
    codesBelow arena i = joinCodes (codesBelow arena l) (codesBelow arena r) := by
  rw [codesBelow, codeTable, hlr.visit (by omega), visit_eq_codesBelow hleaves hn hjoin hlast (hl.trans hi) (by omega),
    visit_eq_codesBelow hleaves hn hjoin hlast (hr.trans hi) (by omega)]

/-- Below every record the codes are complete. -/
theorem completeCode_codesBelow {i : Nat} (hi : i < last) : CompleteCode (codesBelow arena i) := by
  induction i using Nat.strong_induction_on with
  | _ i ih =>
    by_cases hleaf : i < s.counted.length
    · rw [codesBelow, codeTable, hleaves.visit (List.getElem?_eq_getElem hleaf) (by omega)]
      exact completeCode_leaf _
    · obtain ⟨l, r, hlr, ⟨hl, -⟩, ⟨hr, -⟩, -⟩ := hjoin i (by omega) hi
      rw [codesBelow_join hleaves hn hjoin hlast hi hlr hl hr]
      exact (ih l hl (by omega)).join (ih r hr (by omega))

end

/-! ## Every symbol once -/

/-- The symbols of the leaves below record `i`, from left to right. -/
def symbolsBelow (arena : Vector Node 509) (i : Nat) : List Byte := (codesBelow arena i).map Prod.fst

/-- Taking each of the first records in turn lists the counted symbols. -/
theorem LeavesFirst.symbolsBelow_range {s : State} {arena : Vector Node 509} (h : LeavesFirst s arena)
    (hn : s.counted.length ≤ 255) : (List.range s.counted.length).flatMap (symbolsBelow arena) = s.counted := by
  have hleaf (k : Nat) (hk : k < s.counted.length) : symbolsBelow arena k = [s.counted.getD k 0] := by
    rw [symbolsBelow, codesBelow, codeTable, h.visit (List.getElem?_eq_getElem hk) (by omega), List.getD_eq_getElem _ _ hk]
    rfl
  calc (List.range s.counted.length).flatMap (symbolsBelow arena)
      = (List.range s.counted.length).flatMap fun k => [s.counted.getD k 0] :=
        List.flatMap_congr fun k hk => hleaf k (List.mem_range.mp hk)
    _ = (List.range s.counted.length).map fun k => s.counted.getD k 0 := by
        rw [← List.map_eq_flatMap]
    _ = s.counted := List.ext_getElem (by simp) fun k _ hk => by simp [hk]

/-- Undoing a join: the queue before record `next` was made holds its two children in its place. -/
theorem IsQueue.before_join {n : Nat} {arena : Vector Node 509} {live : List Nat} {next l r : Nat}
    (h : IsQueue n arena live (next + 1)) (hn : n ≤ next) (hall : RecordsJoin n arena (next + 1))
    (hjoin : IsJoin arena next l r) (hsmall : SmallestQueued n arena next l r) :
    next ∈ live ∧ IsQueue n arena (l :: r :: live.erase next) next := by
  obtain ⟨hnodup, hmem⟩ := h
  obtain ⟨hl, hr, hlr, -⟩ := hsmall
  have hne : l ≠ r := by
    rintro rfl
    rw [Node.before_iff_key_lt] at hlr
    exact lt_irrefl _ hlr
  have hmem' (j : Nat) : j ∈ live ↔ (Queued n arena next j ∧ j ≠ l ∧ j ≠ r) ∨ j = next := by
    rw [hmem, hall.queued_succ hn hjoin]
  have hrest (j : Nat) : j ∈ live.erase next ↔ Queued n arena next j ∧ j ≠ l ∧ j ≠ r := by
    rw [hnodup.mem_erase_iff, hmem']
    constructor
    · rintro ⟨hj, hq | rfl⟩
      · exact hq
      · exact absurd rfl hj
    · exact fun hq => ⟨hq.1.1.ne, .inl hq⟩
  refine ⟨(hmem' next).mpr (.inr rfl), ?_, fun j => ?_⟩
  · simp [hrest, hne, hnodup.erase]
  · simp only [List.mem_cons, hrest]
    constructor
    · rintro (rfl | rfl | ⟨hj, -⟩)
      · exact hl
      · exact hr
      · exact hj
    · tauto

/-- At each time the trees in the queue carry the counted symbols, each once. -/
theorem queue_symbols_perm {s : State} {arena : Vector Node 509} {last : Nat} (hleaves : LeavesFirst s arena)
    (hn : s.counted.length ≤ 255) (hjoin : RecordsJoin s.counted.length arena last) (hlast : last ≤ 509) {next : Nat}
    (hnext : s.counted.length ≤ next) (hle : next ≤ last) {live : List Nat}
    (hqueue : IsQueue s.counted.length arena live next) : (live.flatMap (symbolsBelow arena)).Perm s.counted := by
  induction next, hnext using Nat.le_induction generalizing live with
  | base =>
    obtain ⟨hnodup, hmem⟩ := hqueue
    have hrange : live.Perm (List.range s.counted.length) := by
      refine (List.perm_ext_iff_of_nodup hnodup List.nodup_range).mpr fun j => ?_
      rw [hmem, List.mem_range]
      exact ⟨fun hj => hj.1, fun hj => ⟨hj, fun m hm hlt => absurd hm (by omega)⟩⟩
    calc live.flatMap (symbolsBelow arena)
        |>.Perm ((List.range s.counted.length).flatMap (symbolsBelow arena)) := hrange.flatMap_right _
      _ = s.counted := hleaves.symbolsBelow_range hn
  | succ next hnext ih =>
    obtain ⟨l, r, hlr, hsmall⟩ := hjoin next hnext hle
    obtain ⟨hmem, hbefore⟩ := hqueue.before_join hnext (fun i hi hlt => hjoin i hi (by omega)) hlr hsmall
    obtain ⟨⟨hl, -⟩, ⟨hr, -⟩, -⟩ := hsmall
    have hsplit : symbolsBelow arena next = symbolsBelow arena l ++ symbolsBelow arena r := by
      rw [symbolsBelow, codesBelow_join hleaves hn hjoin hlast hle hlr hl hr, map_fst_joinCodes]
      rfl
    refine ((List.perm_cons_erase hmem).flatMap_right _).trans ?_
    have := ih (by omega) hbefore
    rwa [List.flatMap_cons, List.flatMap_cons, ← List.append_assoc, ← hsplit, ← List.flatMap_cons] at this

/-! ## The codes of BUILD's tree -/

/-- The codes of a tree for the counts of `s`: each counted symbol has one, and they are complete, or the one code of the
synthetic root over the only leaf (42_tree_builder.md R136, R137). -/
def CodesOf (s : State) (L : List (Byte × Bits)) : Prop :=
  (L.map Prod.fst).Perm s.counted ∧ ((2 ≤ s.counted.length ∧ CompleteCode L) ∨ ∃ b, L = [(b, [false])])

/-- BuildTree makes a tree for the counts. -/
theorem buildTree_codesOf {s : State} (hs : SpecInv s) (hpos : 1 ≤ s.counted.length) (arena : Vector Node 509) :
    CodesOf s (codesBelow (buildTree s.histAt arena).arena (buildTree s.histAt arena).root) := by
  have hn : s.counted.length ≤ 255 := counted_length_le hs.no_delimiter
  by_cases hone : s.counted.length = 1
  · obtain ⟨b, hb⟩ := List.length_eq_one_iff.mp hone
    have hroot := buildTree_soleRoot hs hone arena
    have hleaf := (buildTree_leavesFirst hs hpos arena).visit (i := 0) (b := b) (by simp [hb]) (by decide) 510
    have hcodes : codesBelow (buildTree s.histAt arena).arena 1 = [(b, [false])] := by
      rw [codesBelow, codeTable, visit_join 511 (arenaIdx_ne_nil (by decide)) (by rw [toNat_arenaIdx (by decide), hroot]),
        toNat_arenaIdx (by decide), hroot, visit_stop 510 _ (.inl rfl)]
      exact congrArg (joinCodes · []) hleaf
    rw [buildTree_root hs hpos, if_pos hone, hcodes]
    exact ⟨by simp [hb], .inr ⟨b, rfl⟩⟩
  · have htwo : 2 ≤ s.counted.length := by omega
    obtain ⟨hleaves, hjoin, hqueue, -⟩ := buildTree_inv hs htwo arena
    have hlt := hqueue.lt_of_mem (List.mem_singleton_self _)
    have hperm := queue_symbols_perm hleaves hn hjoin (by omega) (by omega) le_rfl hqueue
    rw [List.flatMap_singleton] at hperm
    exact ⟨hperm, .inl ⟨htwo, completeCode_codesBelow hleaves hn hjoin (by omega) hlt⟩⟩

section
variable {s : State} {L : List (Byte × Bits)} (h : CodesOf s L)
include h

theorem CodesOf.nodup : (L.map Prod.fst).Nodup := h.1.nodup_iff.mpr (nodup_counted s)

theorem CodesOf.length_eq : L.length = s.counted.length := by
  rw [← h.1.length_eq, List.length_map]

/-- 43_code_table.md R155 and R157, per code. -/
theorem CodesOf.code {e : Byte × Bits} (he : e ∈ L) :
    e.2 ≠ [] ∧ (2 ≤ s.counted.length → e.2.length ≤ s.counted.length - 1) ∧ (s.counted.length = 1 → e.2.length = 1) := by
  have hlength := h.length_eq
  obtain ⟨-, ⟨htwo, -, hcode, -⟩ | ⟨b, rfl⟩⟩ := h
  · obtain ⟨hlt, hne⟩ := hcode e he
    rw [hlength] at hlt hne
    exact ⟨hne htwo, fun _ => by omega, fun hone => by omega⟩
  · obtain rfl := List.mem_singleton.mp he
    rw [← hlength]
    exact ⟨List.cons_ne_nil _ _, fun htwo => absurd htwo (Nat.lt_irrefl 1), fun _ => rfl⟩

theorem CodesOf.code_length_le (hn : s.counted.length ≤ 255) {e : Byte × Bits} (he : e ∈ L) : e.2.length ≤ 254 := by
  have hpos : 1 ≤ L.length := List.length_pos_of_mem he
  have hlength := h.length_eq
  obtain ⟨-, htwo, hone⟩ := h.code he
  by_cases h1 : s.counted.length = 1
  · rw [hone h1]
    decide
  · have := htwo (by omega)
    omega

/-- The Kraft sum, scaled by 2^254 (43_code_table.md R156). -/
theorem CodesOf.kraft (hn : s.counted.length ≤ 255) :
    (L.map fun e => 2 ^ (254 - e.2.length)).sum = if s.counted.length = 1 then 2 ^ 253 else 2 ^ 254 := by
  have hlength := h.length_eq
  obtain ⟨-, ⟨htwo, -, -, hsum⟩ | ⟨b, rfl⟩⟩ := h
  · rw [hsum 254 (by omega), if_neg (by omega)]
  · rw [List.length_singleton] at hlength
    rw [if_pos hlength.symm]
    simp

end

end Sys2Proof.Machine
end

section
/-! SUPPORT. What GEN writes to CT and ORDER, and what BUILD and then GEN leave (spec/43_code_table.md R150 to R152). -/

namespace Sys2Proof.Machine

open Sys2Proof Sys2Proof.Claims

/-! ## The code table GEN writes -/

/-- CT[b] of a table. -/
def entryAt (ct : Vector CtEntry 256) (b : Byte) : CtEntry := ct[b.toNat]'b.isLt

/-- One valid entry per leaf, written one after another (43_code_table.md R151). -/
def setCodes (ct : Vector CtEntry 256) (codes : List (Byte × Bits)) : Vector CtEntry 256 :=
  codes.foldl (fun ct e => ct.set e.1.toNat (CtEntry.ofBits e.2) e.1.isLt) ct

theorem setCodes_cons (ct : Vector CtEntry 256) (e : Byte × Bits) (codes : List (Byte × Bits)) :
    setCodes ct (e :: codes) = setCodes (ct.set e.1.toNat (CtEntry.ofBits e.2) e.1.isLt) codes := rfl

theorem writeCodes_eq_setCodes (ct : Vector CtEntry 256) (codes : List (Byte × Bits)) :
    writeCodes ct codes = setCodes (ct.map fun e => { e with valid := false }) codes := rfl

theorem setCodes_of_not_mem (ct : Vector CtEntry 256) {codes : List (Byte × Bits)} {b : Byte}
    (h : b ∉ codes.map Prod.fst) : entryAt (setCodes ct codes) b = entryAt ct b := by
  induction codes generalizing ct with
  | nil => rfl
  | cons e codes ih =>
    rw [List.map_cons, List.mem_cons, not_or] at h
    obtain ⟨hne, hrest⟩ := h
    rw [setCodes_cons, ih _ hrest]
    exact Vector.getElem_set_ne _ _ fun he => hne (BitVec.eq_of_toNat_eq he.symm)

theorem setCodes_of_mem (ct : Vector CtEntry 256) {codes : List (Byte × Bits)} (hnodup : (codes.map Prod.fst).Nodup)
    {e : Byte × Bits} (he : e ∈ codes) : entryAt (setCodes ct codes) e.1 = CtEntry.ofBits e.2 := by
  induction codes generalizing ct with
  | nil => simp at he
  | cons d codes ih =>
    rw [List.map_cons, List.nodup_cons] at hnodup
    obtain ⟨hnew, hnodup⟩ := hnodup
    rw [setCodes_cons]
    obtain rfl | he := List.mem_cons.mp he
    · rw [setCodes_of_not_mem _ hnew]
      exact Vector.getElem_set_self _
    · exact ih _ hnodup he

theorem writeCodes_valid_iff (ct : Vector CtEntry 256) {codes : List (Byte × Bits)} (hnodup : (codes.map Prod.fst).Nodup)
    (b : Byte) : (entryAt (writeCodes ct codes) b).valid = true ↔ b ∈ codes.map Prod.fst := by
  rw [writeCodes_eq_setCodes]
  by_cases hb : b ∈ codes.map Prod.fst
  · obtain ⟨e, he, rfl⟩ := List.mem_map.mp hb
    simp [setCodes_of_mem _ hnodup he, CtEntry.ofBits, hb]
  · rw [setCodes_of_not_mem _ hb]
    simp [entryAt, hb]

/-- A list that fits the array reads back from its start. -/
theorem take_writeFrom {α : Type} {n : Nat} (v : Vector α n) {l : List α} (h : l.length ≤ n) :
    (writeFrom v 0 l).toList.take l.length = l := by
  refine List.ext_getElem? fun i => ?_
  rw [List.getElem?_take]
  split
  · rename_i hi
    rw [Vector.getElem?_toList, getElem?_writeFrom, if_pos (by omega), Nat.sub_zero]
  · rename_i hi
    rw [List.getElem?_eq_none (by omega)]

/-! ## BUILD and GEN as commands -/

/-- A command in a phase that R92 allows it, other than ERROR, performs. -/
theorem exec_of_mem_legalPhases {i : Instr} {s : State} (h : s.phase ∈ legalPhases i) (herror : s.phase ≠ .error) :
    exec i s = .next (retire (perform i s)) := by
  rw [exec_eq_execute]
  exact execute_legal ((legal_iff_mem_legalPhases _ _).mpr h) fun he => absurd he herror

/-- A GEN that ends in E_GEN ran in E_BUILT. -/
theorem exec_gen_done {s t : State} (he : exec .gen s = .next t) (ht : t.phase = .eGen) :
    s.phase = .eBuilt ∧ t = retire (performGen s) := by
  rw [exec_eq_execute] at he
  obtain ⟨herror, -, rfl⟩ | ⟨-, rfl⟩ | ⟨hlegal, rfl⟩ := execute_cases he
  · rw [retire_phase, herror] at ht
    contradiction
  · contradiction
  · exact ⟨by simpa [legal] using hlegal, rfl⟩

/-- BUILD never touches the counts. -/
theorem exec_build_hist {s t : State} (he : exec .build s = .next t) : t.hist = s.hist := by
  rw [exec_eq_execute] at he
  obtain ⟨-, -, rfl⟩ | ⟨-, rfl⟩ | ⟨-, rfl⟩ := execute_cases he
  · rfl
  · rfl
  · by_cases h0 : s.total = 0
    · rw [perform, performBuild_empty h0]
      rfl
    · rw [perform, performBuild_eq h0]
      rfl

theorem runCommands_pair {i j : Instr} {s t : State} (h : runCommands [i, j] s = some t) :
    ∃ u, exec i s = .next u ∧ exec j u = .next t := by
  obtain ⟨u, hu⟩ := exec_next i s
  obtain ⟨v, hv⟩ := exec_next j u
  simp only [runCommands, hu, hv, Option.some.injEq] at h
  exact ⟨u, hu, h ▸ hv⟩

/-- The codes of the tree in ARENA (43_code_table.md R152). -/
def State.codes (s : State) : List (Byte × Bits) := codeTable s.arena s.root

/-- After a BUILD that completed, ARENA and ROOT hold a tree for the counts. -/
theorem exec_build_codesOf {s t : State} (hs : SpecInv s) (he : exec .build s = .next t) (ht : t.phase = .eBuilt) :
    CodesOf s t.codes ∧ t.tabn.toNat = s.counted.length := by
  obtain ⟨h0, harena, hroot, htabn⟩ := exec_build_built he ht
  have hn : s.counted.length ≤ 255 := counted_length_le hs.no_delimiter
  have hpos : 1 ≤ s.counted.length := List.length_pos_of_ne_nil (counted_ne_nil hs.total_eq_sum h0)
  constructor
  · rw [State.codes, harena, hroot]
    exact buildTree_codesOf hs hpos s.arena
  · rw [htabn, BitVec.toNat_ofNat, Nat.mod_eq_of_lt (by omega)]

/-- CT and ORDER hold the codes of the tree in ARENA (43_code_table.md R150, R151). -/
def TableWritten (t : State) : Prop :=
  t.orderList = t.codes.map Prod.fst ∧ (∀ e ∈ t.codes, t.ctAt e.1 = CtEntry.ofBits e.2) ∧
  ∀ b, (t.ctAt b).valid = true ↔ b ∈ t.codes.map Prod.fst

/-- GEN writes the codes where their symbols differ and number TABN. -/
theorem performGen_tableWritten {s : State} (hnodup : (s.codes.map Prod.fst).Nodup) (hlength : s.codes.length = s.tabn.toNat) :
    TableWritten (performGen s) := by
  refine ⟨?order, fun e he => ?entry, fun b => writeCodes_valid_iff s.ct hnodup b⟩
  case order =>
    have hle : (s.codes.map Prod.fst).length = s.tabn.toNat := (List.length_map _).trans hlength
    calc (performGen s).orderList = (writeFrom s.order 0 (s.codes.map Prod.fst)).toList.take s.tabn.toNat := rfl
      _ = s.codes.map Prod.fst := by
        rw [← hle]
        exact take_writeFrom _ (hle.trans_le (Nat.le_of_lt_succ s.tabn.isLt))
  case entry => exact setCodes_of_mem _ hnodup he

/-- After BUILD and GEN from `s`: ARENA holds a tree for the counts of `s`, CT and ORDER its codes, and BITLEN the sum of R150. -/
def CodesGenerated (s t : State) : Prop :=
  CodesOf s t.codes ∧ t.tabn.toNat = s.counted.length ∧ TableWritten t ∧
  t.bitlen = BitVec.ofNat 40 (bitLength s.histAt t.ctAt)

theorem codesGenerated {s t : State} (hs : SpecInv s) (hrun : runCommands [.build, .gen] s = some t) (ht : t.phase = .eGen) :
    CodesGenerated s t := by
  obtain ⟨u, hbuild, hgen⟩ := runCommands_pair hrun
  obtain ⟨hbuilt, rfl⟩ := exec_gen_done hgen ht
  obtain ⟨hcodes, htabn⟩ := exec_build_codesOf hs hbuild hbuilt
  refine ⟨hcodes, htabn, performGen_tableWritten hcodes.nodup (hcodes.length_eq.trans htabn.symm), ?_⟩
  rw [← histAt_congr (exec_build_hist hbuild)]
  rfl

theorem CtEntry.length_bits (e : CtEntry) : e.bits.length = e.len.toNat := bitsOfField_length _ _

section
variable {s t : State} (h : CodesGenerated s t)
include h

/-- A code reads back from CT. -/
theorem CodesGenerated.bits_ctAt (hn : s.counted.length ≤ 255) : ∀ e ∈ t.codes, (t.ctAt e.1).bits = e.2 := by
  obtain ⟨hcodes, -, ⟨-, hentry, -⟩, -⟩ := h
  intro e he
  rw [hentry e he, CtEntry.bits_ofBits _ (hcodes.code_length_le hn he)]

/-- A valid entry of CT holds one of the tree's codes. -/
theorem CodesGenerated.mem_codes (hn : s.counted.length ≤ 255) {b : Byte} (hb : (t.ctAt b).valid = true) :
    (b, (t.ctAt b).bits) ∈ t.codes := by
  have hbits := h.bits_ctAt hn
  obtain ⟨-, -, ⟨-, -, hvalid⟩, -⟩ := h
  obtain ⟨e, he, rfl⟩ := List.mem_map.mp ((hvalid b).mp hb)
  rwa [hbits e he]

/-- ORDER lists the symbols in the order of the tree's codes. -/
theorem CodesGenerated.map_bits_orderList (hn : s.counted.length ≤ 255) :
    (t.orderList.map fun b => (t.ctAt b).bits) = t.codes.map Prod.snd := by
  have hbits := h.bits_ctAt hn
  obtain ⟨-, -, ⟨horder, -⟩, -⟩ := h
  rw [horder, List.map_map]
  exact List.map_congr_left hbits

theorem CodesGenerated.valid_iff (b : Byte) : (t.ctAt b).valid = true ↔ s.histAt b ≠ 0 := by
  obtain ⟨⟨hperm, -⟩, -, ⟨-, -, hvalid⟩, -⟩ := h
  rw [hvalid, hperm.mem_iff, State.counted, List.mem_filter]
  simp [mem_allBytes]

theorem CodesGenerated.filter_valid : (allBytes.filter fun b => (t.ctAt b).valid) = s.counted := by
  refine List.filter_congr fun b _ => ?_
  rw [Bool.eq_iff_iff, h.valid_iff, bne_iff_ne]

/-- A sum over the valid symbols is a sum over the tree's codes. -/
theorem CodesGenerated.sum_valid (hn : s.counted.length ≤ 255) (f : Nat → Nat) :
    (allBytes.map fun b => if (t.ctAt b).valid then f (t.ctAt b).len.toNat else 0).sum =
      (t.codes.map fun e => f e.2.length).sum := by
  have hlen (e : Byte × Bits) (he : e ∈ t.codes) : f (t.ctAt e.1).len.toNat = f e.2.length := by
    rw [← CtEntry.length_bits, h.bits_ctAt hn e he]
  have hfilter := h.filter_valid
  obtain ⟨⟨hperm, -⟩, -⟩ := h
  calc (allBytes.map fun b => if (t.ctAt b).valid then f (t.ctAt b).len.toNat else 0).sum
      = ((allBytes.filter fun b => (t.ctAt b).valid).map fun b => f (t.ctAt b).len.toNat).sum := by
        rw [List.sum_map_ite, List.map_const', List.sum_replicate, smul_zero, add_zero]
        simp only [Bool.decide_eq_true]
    _ = ((t.codes.map Prod.fst).map fun b => f (t.ctAt b).len.toNat).sum := by
        rw [hfilter, (hperm.map fun b => f (t.ctAt b).len.toNat).sum_nat]
    _ = (t.codes.map fun e => f e.2.length).sum := by
        rw [List.map_map]
        exact congrArg List.sum (List.map_congr_left hlen)

end

/-- The sum of R150 is at most the longest code's length for each counted symbol. -/
theorem bitLength_le (hist : Byte → Word) (ct : Byte → CtEntry) {k : Nat}
    (h : ∀ b, (ct b).valid = true → (ct b).len.toNat ≤ k) :
    bitLength hist ct ≤ k * (allBytes.map fun b => (hist b).toNat).sum := by
  rw [← List.sum_map_mul_left]
  refine List.sum_le_sum fun b _ => ?_
  split
  · rename_i hb
    rw [mul_comm]
    exact Nat.mul_le_mul_right _ (h b hb)
  · exact Nat.zero_le _

end Sys2Proof.Machine
end

section
/-! PROOFS. The statements on the code-table generator (spec/43_code_table.md R150 to R158). -/

namespace Sys2Proof.Machine

open Sys2Proof Sys2Proof.Claims

/-- Settles O19: GEN's effects, field by field. -/
theorem genCompletes : Obligations.GenCompletes := by
  refine ⟨decode_encode .gen, (sequenceExactlyOutsideLegalPhases .gen).1, fun s hphase => ?_⟩
  exact ⟨_, exec_of_mem_legalPhases (by simp [legalPhases, hphase]) (by simp [hphase]), rfl⟩

/-- Settles O20: a valid entry holds a code of the tree in ARENA, and the code leads to its leaf. -/
theorem codesFollowTheTree : Obligations.CodesFollowTheTree := by
  intro s t hs hrun ht b hb
  exact follow_of_mem_visit ((codesGenerated hs hrun ht).mem_codes (counted_length_le hs.no_delimiter) hb)

/-- Settles O21: the leaves of the tree carry the counted symbols, each once, and the root is no leaf. -/
theorem everyCountedSymbolHasACode : Obligations.EveryCountedSymbolHasACode := by
  intro s t hs hrun ht
  have hgen := codesGenerated hs hrun ht
  have hn := counted_length_le hs.no_delimiter
  obtain ⟨hcodes, htabn, ⟨horder, -⟩, -⟩ := id hgen
  rw [hgen.filter_valid, horder, htabn]
  refine ⟨hgen.valid_iff, rfl, fun b hb => ?_, hcodes.1⟩
  obtain ⟨hne, -⟩ := hcodes.code (hgen.mem_codes hn hb)
  exact List.length_pos_of_ne_nil hne

/-- Settles O22: the codes of two leaves part at an inner node. -/
theorem codesArePrefixFree : Obligations.CodesArePrefixFree := by
  intro s t hs hrun ht a b ha hb hab
  have hgen := codesGenerated hs hrun ht
  have hn := counted_length_le hs.no_delimiter
  exact not_prefix_of_mem_visit (hgen.mem_codes hn ha) (hgen.mem_codes hn hb) (by simp [hab])

/-- Settles O23: a complete code is shorter than there are codes; the synthetic root's one code has one bit. -/
theorem codeLengthsAreBounded : Obligations.CodeLengthsAreBounded := by
  intro s t hs hrun ht
  have hgen := codesGenerated hs hrun ht
  have hn := counted_length_le hs.no_delimiter
  obtain ⟨hcodes, htabn, -, hbitlen⟩ := id hgen
  have hle (b : Byte) (hb : (t.ctAt b).valid = true) : (t.ctAt b).len.toNat ≤ 254 := by
    rw [← CtEntry.length_bits]
    exact hcodes.code_length_le hn (hgen.mem_codes hn hb)
  refine ⟨fun b hb => ⟨hle b hb, ?_⟩, ?_⟩
  · rw [htabn, ← CtEntry.length_bits]
    exact (hcodes.code (hgen.mem_codes hn hb)).2
  · rw [hbitlen, BitVec.toNat_ofNat, hs.total_eq_sum]
    exact (Nat.mod_le _ _).trans (bitLength_le _ _ hle)

/-- Settles O24: the Kraft sum of the tree's codes. -/
theorem kraftSumIsOne : Obligations.KraftSumIsOne := by
  intro s t hs hrun ht
  have hgen := codesGenerated hs hrun ht
  have hn := counted_length_le hs.no_delimiter
  obtain ⟨hcodes, htabn, -⟩ := id hgen
  rw [hgen.sum_valid hn fun n => 2 ^ (254 - n), htabn]
  exact hcodes.kraft hn

/-- Settles O25: from left to right each code of the tree parts before every later one. -/
theorem orderIsLexicographic : Obligations.OrderIsLexicographic := by
  intro s t hs hrun ht
  rw [(codesGenerated hs hrun ht).map_bits_orderList (counted_length_le hs.no_delimiter), List.pairwise_map]
  exact (visit_partBefore 512 t.arena t.root).imp PartsBefore.lex

/-- Settles O26: RDCODE emits `codeBytes` of the entry. -/
theorem rdcodeEmitsLengthAndCode : Obligations.RdcodeEmitsLengthAndCode := by
  refine fun b => ⟨(decode_eq_ok_iff_eq_encode _ _).mpr (wordOf_eq_shift_or 0x22 b).symm,
    (sequenceExactlyOutsideLegalPhases (.rdcode b)).1, fun s hphase => ⟨codeBytes (s.ctAt b), ?exec, fun hinvalid => ?zero,
    fun hvalid => ⟨paddedBytes (s.ctAt b).bits, ?code, ?bits⟩⟩⟩
  case exec =>
    refine exec_of_mem_legalPhases (by simpa [legalPhases] using hphase) fun herror => ?_
    simp [herror] at hphase
  case zero => exact if_neg (by simp [hinvalid])
  case code => exact if_pos hvalid
  case bits =>
    rw [paddedBytes_bits, CtEntry.length_bits]
    rfl

end Sys2Proof.Machine
end

section
/-! SUPPORT. Commands run one after another, and the four parts of ENC (spec/45_container.md R202). -/

namespace Sys2Proof.Machine

open Sys2Proof Sys2Proof.Claims

/-! ## Runs of commands -/

@[simp] theorem runCommands_nil (s : State) : runCommands [] s = some s := rfl

theorem runCommands_cons {i : Instr} {s t : State} (h : exec i s = .next t) (is : List Instr) :
    runCommands (i :: is) s = runCommands is t := by simp only [runCommands, h]

theorem runCommands_append {is js : List Instr} {s t : State} (h : runCommands is s = some t) :
    runCommands (is ++ js) s = runCommands js t := by
  induction is generalizing s with
  | nil => exact Option.some.inj h ▸ rfl
  | cons i is ih =>
    obtain ⟨u, hu⟩ := exec_next i s
    rw [runCommands_cons hu] at h
    rw [List.cons_append, runCommands_cons hu, ih h]

/-- A command in a phase that R92 allows it, other than ERROR, performs. -/
theorem exec_of_phase {i : Instr} {s : State} {p : Phase} (h : s.phase = p) (hmem : p ∈ legalPhases i)
    (hp : p ≠ .error) : exec i s = .next (retire (perform i s)) := exec_of_mem_legalPhases (h ▸ hmem) (h ▸ hp)

/-- A command in one of two phases that R92 allows it, neither of them ERROR, performs. -/
theorem exec_of_phase_or {i : Instr} {s : State} {p q : Phase} (h : s.phase = p ∨ s.phase = q)
    (hmem : legalPhases i = [p, q]) (hp : p ≠ .error) (hq : q ≠ .error) : exec i s = .next (retire (perform i s)) := by
  obtain h | h := h
  · exact exec_of_phase h (by simp [hmem]) hp
  · exact exec_of_phase h (by simp [hmem]) hq

/-! ## ENC's parts -/

/-- The state BUILD and GEN leave on a counted text. -/
def State.generated (s : State) : State := retire (performGen (performBuild s))

@[simp] theorem generated_phase (s : State) : s.generated.phase = .eGen := rfl

theorem generated_histAt {s : State} (h : s.total ≠ 0) : s.generated.histAt = s.histAt := by
  rw [State.generated, performBuild_eq h]
  rfl

theorem generated_symbols {s : State} (h : s.total ≠ 0) : s.generated.symbols = s.symbols := by
  rw [State.generated, performBuild_eq h]
  rfl

theorem generated_err {s : State} (h : s.total ≠ 0) : s.generated.err = s.err := by
  rw [State.generated, performBuild_eq h]
  rfl

theorem generated_pendOut {s : State} (h : s.total ≠ 0) : s.generated.pendOut = s.pendOut := by
  rw [State.generated, performBuild_eq h]
  rfl

theorem runCommands_build_gen {s : State} (hphase : s.phase = .idle ∨ s.phase = .eCount) (h : s.total ≠ 0) :
    runCommands [.build, .gen] s = some s.generated := by
  have hbuild : exec .build s = .next (retire (performBuild s)) := exec_of_phase_or hphase rfl (by decide) (by decide)
  have hbuilt : (retire (performBuild s)).phase = .eBuilt := by rw [performBuild_eq h]; rfl
  have hgen : exec .gen (retire (performBuild s)) = .next s.generated :=
    exec_of_phase hbuilt (by decide) (by decide)
  rw [runCommands_cons hbuild, runCommands_cons hgen, runCommands_nil]

/-- The state HDR and PACK leave after `t`: the container is emitted. -/
def State.withContainer (t : State) : State := retire (performPack (performHdr t))

@[simp] theorem withContainer_phase (t : State) : t.withContainer.phase = .eDone := rfl
@[simp] theorem withContainer_err (t : State) : t.withContainer.err = t.err := rfl
@[simp] theorem withContainer_tabn (t : State) : t.withContainer.tabn = t.tabn := rfl
@[simp] theorem withContainer_bitlen (t : State) : t.withContainer.bitlen = t.bitlen := rfl
@[simp] theorem withContainer_ctAt (t : State) : t.withContainer.ctAt = t.ctAt := rfl

theorem runCommands_hdr_pack {s : State} (hphase : s.phase = .eGen) :
    runCommands [.hdr, .pack] s = some s.withContainer := by
  have hhdr : exec .hdr s = .next (retire (performHdr s)) := exec_of_phase hphase (by decide) (by decide)
  have hpack : exec .pack (retire (performHdr s)) = .next s.withContainer :=
    exec_of_phase (p := .eHdr) rfl (by decide) (by decide)
  rw [runCommands_cons hhdr, runCommands_cons hpack, runCommands_nil]

/-- ENC on a counted text is HDR and PACK after BUILD and GEN. -/
theorem exec_enc_counted {s : State} (hphase : s.phase = .idle ∨ s.phase = .eCount) (h : s.total ≠ 0) :
    exec .enc s = .next s.generated.withContainer := by
  rw [exec_of_phase_or hphase rfl (by decide) (by decide), performEnc_eq h]
  rfl

/-- An ENC that ends in E_DONE ran on a counted text. -/
theorem exec_enc_done {s t : State} (he : exec .enc s = .next t) (ht : t.phase = .eDone) :
    (s.phase = .idle ∨ s.phase = .eCount) ∧ s.total ≠ 0 := by
  rw [exec_eq_execute] at he
  obtain ⟨herror, -, rfl⟩ | ⟨-, rfl⟩ | ⟨hlegal, rfl⟩ := execute_cases he
  · rw [retire_phase, herror] at ht
    contradiction
  · contradiction
  · refine ⟨by simpa [legal] using hlegal, fun h0 => ?_⟩
    rw [performEnc_empty h0] at ht
    contradiction

end Sys2Proof.Machine
end

section
/-! SUPPORT. The container's bytes: what HDR and PACK emit, and how many bits the packed codes are
(spec/45_container.md R190 to R194, spec/44_bit_packer.md R176, R177). -/

namespace Sys2Proof.Machine

open Sys2Proof Sys2Proof.Claims

/-- PACK's bytes after the padding byte. -/
def State.packed (t : State) : List Byte := packLoop (fun b => (t.ctAt b).bits) t.symbols []

/-- What HDR and PACK emit for the codes in CT and ORDER (45_container.md R190). -/
def State.containerBytes (t : State) : List Byte :=
  headerBytes t.tabn t.orderList (fun b => (t.ctAt b).bits) ++ t.pad :: t.packed

theorem withContainer_pendOut (t : State) : t.withContainer.pendOut = t.pendOut ++ t.containerBytes :=
  List.append_assoc _ _ _

/-- 44_bit_packer.md R177: the packed bytes' bits are the stream and its padding. -/
theorem packed_bits (t : State) :
    t.packed.flatMap byteToBits = stream t ++ zeroBits (padLength (stream t).length) :=
  packLoop_bits _ _ [] (by decide)

theorem length_packed (t : State) : t.packed.length = ((stream t).length + 7) / 8 := by
  have h := congrArg List.length (packed_bits t)
  rw [flatMap_byteToBits_length, List.length_append, zeroBits, List.length_replicate, padLength] at h
  omega

/-- A sum over a list of bytes goes by how often each byte occurs. -/
theorem sum_map_eq_sum_count (l : List Byte) (f : Byte → Nat) :
    (l.map f).sum = (allBytes.map fun b => l.count b * f b).sum := by
  rw [Finset.sum_list_map_count, ← List.sum_toFinset _ nodup_allBytes]
  refine Finset.sum_subset (fun b _ => List.mem_toFinset.mpr (mem_allBytes b)) fun b _ hb => ?_
  rw [List.count_eq_zero_of_not_mem (mt List.mem_toFinset.mpr hb), zero_smul]

section
variable {s t : State} (h : CodesGenerated s t)
include h

/-- The stream of the counted symbols is as long as R150 says. -/
theorem CodesGenerated.length_stream (hs : SpecInv s) (hsymbols : t.symbols = s.symbols) :
    (stream t).length = bitLength s.histAt t.ctAt := by
  rw [stream, List.length_flatMap, sum_map_eq_sum_count, hsymbols, bitLength]
  refine congrArg List.sum (List.map_congr_left fun b _ => ?_)
  rw [← hs.hist_counts b, CtEntry.length_bits]
  split
  · rfl
  · rename_i hinvalid
    have hzero : s.histAt b = 0 := by rwa [h.valid_iff, not_not] at hinvalid
    simp [hzero]

theorem CodesGenerated.len_le (hn : s.counted.length ≤ 255) {b : Byte} (hb : (t.ctAt b).valid = true) :
    (t.ctAt b).len.toNat ≤ 254 := by
  rw [← CtEntry.length_bits]
  exact h.1.code_length_le hn (h.mem_codes hn hb)

/-- BITLEN's 40 bits hold the stream's length. -/
theorem CodesGenerated.bitlen_eq (hs : SpecInv s) : t.bitlen.toNat = bitLength s.histAt t.ctAt := by
  have hle := bitLength_le s.histAt t.ctAt fun b => h.len_le (counted_length_le hs.no_delimiter)
  rw [← hs.total_eq_sum] at hle
  have htotal := s.total.isLt
  obtain ⟨-, -, -, hbitlen⟩ := h
  rw [hbitlen, BitVec.toNat_ofNat, Nat.mod_eq_of_lt (by omega)]

theorem CodesGenerated.length_orderList : t.orderList.length = t.tabn.toNat := by
  obtain ⟨hcodes, htabn, ⟨horder, -⟩, -⟩ := h
  rw [horder, List.length_map, hcodes.length_eq, htabn]

/-- 45_container.md R193. -/
theorem CodesGenerated.length_containerBytes (hs : SpecInv s) (hsymbols : t.symbols = s.symbols) :
    t.containerBytes.length = 1 + t.tabn.toNat +
      (allBytes.map fun b => if (t.ctAt b).valid then (t.ctAt b).len.toNat + 1 else 0).sum + 1 +
      (t.bitlen.toNat + 7) / 8 := by
  have hn := counted_length_le hs.no_delimiter
  have hentries : (t.orderList.flatMap fun b => valueEntry (t.ctAt b).bits).length =
      (allBytes.map fun b => if (t.ctAt b).valid then (t.ctAt b).len.toNat + 1 else 0).sum := by
    calc (t.orderList.flatMap fun b => valueEntry (t.ctAt b).bits).length
        = ((t.orderList.map fun b => (t.ctAt b).bits).map fun c => c.length + 1).sum := by
          rw [List.length_flatMap, List.map_map]
          simp [valueEntry, Function.comp_def]
      _ = (t.codes.map fun e => e.2.length + 1).sum := by
          rw [h.map_bits_orderList hn, List.map_map]
          rfl
      _ = _ := (h.sum_valid hn (· + 1)).symm
  rw [State.containerBytes, headerBytes, List.length_append, List.length_cons, List.length_cons, List.length_append,
    hentries, h.length_orderList, length_packed, h.length_stream hs hsymbols, h.bitlen_eq hs]
  omega

end

/-- 43_code_table.md R150: PAD completes the sum's bits to whole bytes. -/
theorem generated_pad {s : State} (h : s.total ≠ 0) :
    s.generated.pad = BitVec.ofNat 8 (padLength (bitLength s.histAt s.generated.ctAt)) := by
  rw [← generated_histAt h]
  rfl

theorem codesGenerated_generated {s : State} (hs : SpecInv s) (hphase : s.phase = .idle ∨ s.phase = .eCount)
    (h : s.total ≠ 0) : CodesGenerated s s.generated :=
  codesGenerated hs (runCommands_build_gen hphase h) rfl

/-- ENC on a counted text emits its container. -/
theorem pendOut_enc {s : State} (h : s.total ≠ 0) :
    s.generated.withContainer.pendOut = s.pendOut ++ s.generated.containerBytes := by
  rw [withContainer_pendOut, generated_pendOut h]

end Sys2Proof.Machine
end

section
/-! SUPPORT. Loading, parsing and decoding a container: what DIN, DHDR and DPAY leave (spec/45_container.md R195 to R205). -/

namespace Sys2Proof.Machine

open Sys2Proof Sys2Proof.Claims

/-! ## DIN -/

/-- The loaded byte joins the container at its end. -/
theorem performDin_container {b : Byte} {s : State} (h : s.clen.toNat ≠ s.params.maxClen) (hwf : Memory.wf s.cbuf)
    (hclen : (s.clen + 1).toNat = s.clen.toNat + 1) : (performDin b s).container = s.container ++ [b] := by
  have hend := Memory.slice_write_end 0 s.clen.toNat b hwf
  rw [Nat.zero_add] at hend
  rw [performDin_eq h, State.container, hclen, hend, State.container]

/-! ## The payload -/

theorem payload_eq_drop (s : State) : s.payload = s.container.drop (s.ppos.toNat + 1) := by
  refine List.ext_getElem ?_ fun i hi hi' => ?_
  · rw [List.length_drop, container_length, State.payload, Memory.slice_length]
    omega
  · rw [List.getElem_drop, container_getElem]
    simp [State.payload, Memory.slice]

theorem logicalBits_eq_take (s : State) (p : Nat) :
    logicalBits s p = (s.payload.flatMap byteToBits).take (8 * s.payload.length - p) := by
  rw [State.payload, Memory.slice_length]
  rfl

/-! ## DHDR -/

/-- The form of a header entry in the statements is the parser's. -/
theorem entryBytes_eq_valueEntry : entryBytes = valueEntry := rfl

/-- The parser accepts a header and gives its keys and codes. -/
theorem parseHeader_of_isHeader {bytes keys : List Byte} {codes : List Bits} {rest : List Byte}
    (h : IsHeader bytes keys codes rest) :
    parseHeader bytes = some { entries := keys.zip codes, ppos := bytes.length - rest.length } := by
  obtain ⟨hlayout, ⟨hpos, hle⟩, hpaired, hdelimiter, hdistinct, hlengths, hprefix, hrest⟩ := h
  have hsize : (BitVec.ofNat 8 keys.length).toNat = keys.length := Nat.mod_eq_of_lt (by omega)
  have hvalues : parseValues keys.length (codes.flatMap valueEntry ++ rest) = some (codes, rest) :=
    (parseValues_iff _ _ _ _).mpr ⟨hpaired, rfl, hlengths⟩
  rw [List.append_assoc, entryBytes_eq_valueEntry] at hlayout
  rw [hlayout, parseHeader]
  simp only [hsize, List.take_left, List.drop_left, hvalues]
  rw [if_neg (by omega), if_neg (by simp), if_neg (show Config.delimiter ∉ keys from hdelimiter),
    if_neg (not_not_intro hdistinct), if_neg (not_not_intro hprefix), if_neg (by simpa using hrest)]

/-- The parser accepts headers only. -/
theorem isHeader_of_parseHeader {bytes : List Byte} {header : Header} (h : parseHeader bytes = some header) :
    ∃ keys codes rest, IsHeader bytes keys codes rest := by
  cases bytes with
  | nil => simp [parseHeader] at h
  | cons size body =>
    simp only [parseHeader, Option.ite_none_left_eq_some] at h
    obtain ⟨hpos, hbody, hdelimiter, hdistinct, h⟩ := h
    split at h
    · contradiction
    · rename_i codes rest hvalues
      simp only [Option.ite_none_left_eq_some] at h
      obtain ⟨hprefix, hrest, -⟩ := h
      obtain ⟨hcodes, hbytes, hlengths⟩ := (parseValues_iff _ _ _ _).mp hvalues
      have hkeys : (body.take size.toNat).length = size.toNat := List.length_take_of_le (Nat.not_lt.mp hbody)
      refine ⟨body.take size.toNat, codes, rest, ?layout, ?size, hcodes.trans hkeys.symm, hdelimiter, not_not.mp hdistinct,
        hlengths, not_not.mp hprefix, by simpa using hrest⟩
      case layout =>
        rw [hkeys, BitVec.ofNat_toNat, BitVec.setWidth_eq, List.append_assoc, entryBytes_eq_valueEntry, ← hbytes,
          List.take_append_drop]
      case size =>
        have hsize := size.isLt
        omega

theorem parseHeader_eq_none {bytes : List Byte} (h : ¬ ∃ keys codes rest, IsHeader bytes keys codes rest) :
    parseHeader bytes = none :=
  Option.eq_none_iff_forall_ne_some.mpr fun _ hp => h (isHeader_of_parseHeader hp)

section
variable {s : State} {keys : List Byte} {codes : List Bits} {rest : List Byte} (h : IsHeader s.container keys codes rest)
include h

theorem length_rest_of_isHeader : 1 ≤ rest.length ∧ rest.length < s.container.length := by
  have hlength := congrArg List.length h.layout
  have hpos := List.length_pos_of_ne_nil h.padding_byte
  rw [List.length_cons, List.length_append] at hlength
  omega

/-- What follows the header is the end of the container. -/
theorem drop_container_of_isHeader : s.container.drop (s.container.length - rest.length) = rest :=
  (List.suffix_iff_eq_drop.mp ⟨BitVec.ofNat 8 keys.length :: (keys ++ codes.flatMap entryBytes), h.layout.symm⟩).symm

/-- The padding byte is the first byte after the header. -/
theorem read_padding_of_isHeader : s.cbuf.read (s.container.length - rest.length) = rest.headD 0 := by
  obtain ⟨hpos, hlt⟩ := length_rest_of_isHeader h
  conv_rhs => rw [← drop_container_of_isHeader h]
  rw [← container_getElem s _ (by omega), List.headD_eq_head?_getD, List.head?_drop, List.getElem?_eq_getElem (by omega),
    Option.getD_some]

/-- DHDR on a header: what it writes (45_container.md R204). -/
theorem performDhdr_of_isHeader : performDhdr s = { s with
    dt := (performDhdr s).dt, tabn := BitVec.ofNat 8 keys.length
    ppos := BitVec.ofNat 32 (s.container.length - rest.length), pad := rest.headD 0, phase := .dHdr } := by
  rw [performDhdr_some (parseHeader_of_isHeader h), read_padding_of_isHeader h, List.length_zip, h.paired, Nat.min_self]

/-- DT's entries read back as the header's keys and codes. -/
theorem performDhdr_dtList : (performDhdr s).dtList = keys.zip codes := by
  obtain ⟨-, hle⟩ := h.size
  have hlength : ((keys.zip codes).map fun e => DtEntry.ofPair e.1 e.2).length = keys.length := by
    rw [List.length_map, List.length_zip, h.paired, Nat.min_self]
  have htabn : (performDhdr s).tabn.toNat = keys.length := by
    rw [performDhdr_of_isHeader h]
    exact Nat.mod_eq_of_lt (by omega)
  have hdt : (performDhdr s).dt = writeFrom s.dt 0 ((keys.zip codes).map fun e => DtEntry.ofPair e.1 e.2) := by
    rw [performDhdr_some (parseHeader_of_isHeader h)]
  rw [State.dtList, htabn, hdt, ← hlength, take_writeFrom s.dt (hlength.trans_le hle), List.map_map]
  refine (List.map_congr_left fun e he => ?_).trans (List.map_id _)
  have hcode := h.lengths e.2 (List.of_mem_zip he).2
  exact Prod.ext rfl (DtEntry.bits_ofPair e.1 e.2 hcode.2)

theorem performDhdr_ppos : (performDhdr s).ppos.toNat = s.container.length - rest.length := by
  have hclen := s.clen.isLt
  rw [← container_length] at hclen
  rw [performDhdr_of_isHeader h]
  exact Nat.mod_eq_of_lt (by omega)

theorem performDhdr_container : (performDhdr s).container = s.container := by
  rw [performDhdr_of_isHeader h]
  rfl

/-- DHDR leaves PPOS at the padding byte. -/
theorem performDhdr_read_ppos : (performDhdr s).cbuf.read (performDhdr s).ppos.toNat = rest.headD 0 := by
  rw [performDhdr_ppos h, performDhdr_of_isHeader h]
  exact read_padding_of_isHeader h

/-- What follows the padding byte is the payload. -/
theorem performDhdr_payload : (performDhdr s).payload = rest.tail := by
  rw [payload_eq_drop, performDhdr_ppos h, performDhdr_container h, ← List.drop_drop, drop_container_of_isHeader h,
    List.drop_one]

end

/-- DHDR emits nothing, whatever it parses. -/
theorem performDhdr_pendOut (s : State) : (performDhdr s).pendOut = s.pendOut := by
  cases hp : parseHeader s.container with
  | none => rw [performDhdr_none hp]; rfl
  | some header => rw [performDhdr_some hp]

/-! ## DPAY -/

/-- Where P is at most 7 and the payload is not empty, the payload unpacks to the logical bits. -/
theorem unpackBits_payload {s : State} {p : Nat} (hp : p ≤ 7) (hlt : s.ppos.toNat + 1 < s.clen.toNat) :
    unpackBits s.payload p = some (logicalBits s p) := by
  have hlength : s.payload.length = s.clen.toNat - s.ppos.toNat - 1 := Memory.slice_length _ _ _
  rw [unpackBits, if_neg (by omega), if_neg (by omega), hlength]
  rfl

theorem performDpay_corrupted {s : State}
    (h : 7 < (s.cbuf.read s.ppos.toNat).toNat ∨ s.clen.toNat ≤ s.ppos.toNat + 1) :
    performDpay s = raise .corruptedPayload s := by
  have hlength : s.payload.length = s.clen.toNat - s.ppos.toNat - 1 := Memory.slice_length _ _ _
  rw [performDpay]
  split
  · rfl
  · rw [if_pos (by omega)]

/-- DPAY emits the keys the walk over the logical bits matches, and fails where the walk leaves bits. -/
theorem performDpay_walk {s : State} {keys : List Byte} {left : Bits} (hp : (s.cbuf.read s.ppos.toNat).toNat ≤ 7)
    (hlt : s.ppos.toNat + 1 < s.clen.toNat)
    (hwalk : walk s.dtList (logicalBits s (s.cbuf.read s.ppos.toNat).toNat) [] = (keys, left)) :
    performDpay s =
      if left = [] then { emit keys s with phase := .dDone } else raise .corruptedPayload (emit keys s) := by
  have hlength : s.payload.length = s.clen.toNat - s.ppos.toNat - 1 := Memory.slice_length _ _ _
  simp only [performDpay, unpackBits_payload hp hlt, hwalk, List.isEmpty_iff]
  rw [if_neg (by omega), if_neg (by omega)]

/-- DPAY over the codes of some entries, where no code of the table begins another (45_container.md R200). -/
theorem performDpay_codes {s : State} {entries : List (Byte × Bits)} (hp : (s.cbuf.read s.ppos.toNat).toNat ≤ 7)
    (hlt : s.ppos.toNat + 1 < s.clen.toNat) (hprefix : prefixFree (s.dtList.map Prod.snd))
    (hentries : ∀ e ∈ entries, e ∈ s.dtList ∧ e.2 ≠ [])
    (hbits : logicalBits s (s.cbuf.read s.ppos.toNat).toNat = entries.flatMap Prod.snd) :
    performDpay s = { emit (entries.map Prod.fst) s with phase := .dDone } := by
  rw [performDpay_walk hp hlt (hbits ▸ walk_codes hprefix entries hentries), if_pos rfl]

/-- PENDING plays no part in DPAY. -/
theorem performDpay_retire (s : State) : performDpay (retire s) = retire (performDpay s) := by
  by_cases h : 7 < (s.cbuf.read s.ppos.toNat).toNat ∨ s.clen.toNat ≤ s.ppos.toNat + 1
  · rw [performDpay_corrupted h, performDpay_corrupted (s := retire s) h]
    rfl
  · obtain ⟨hp, hlt⟩ := not_or.mp h
    obtain ⟨keys, left, hwalk⟩ :
        ∃ keys left, walk s.dtList (logicalBits s (s.cbuf.read s.ppos.toNat).toNat) [] = (keys, left) := ⟨_, _, rfl⟩
    rw [performDpay_walk (not_lt.mp hp) (not_le.mp hlt) hwalk,
      performDpay_walk (s := retire s) (not_lt.mp hp) (not_le.mp hlt) hwalk]
    split <;> rfl

/-! ## DEC -/

/-- DEC is DHDR, and DPAY after it unless it raised. -/
theorem runCommands_dhdr_dpay {s : State} (hphase : s.phase = .idle ∨ s.phase = .dLoad) :
    runCommands [.dhdr, .dpay] s = some (retire (perform .dec s)) := by
  have hdhdr : exec .dhdr s = .next (retire (performDhdr s)) := exec_of_phase_or hphase rfl (by decide) (by decide)
  rw [runCommands_cons hdhdr, perform]
  by_cases herror : (performDhdr s).phase = .error
  · have hdpay : exec .dpay (retire (performDhdr s)) = .next (retire (retire (performDhdr s))) :=
      (exec_eq_execute _ _).trans (execute_gated herror rfl)
    rw [runCommands_cons hdpay, andThen_of_error herror]
    rfl
  · have hdone : (retire (performDhdr s)).phase = .dHdr := performDhdr_phase herror
    have hdpay : exec .dpay (retire (performDhdr s)) = .next (retire (performDpay (retire (performDhdr s)))) :=
      exec_of_phase hdone (by decide) (by decide)
    rw [runCommands_cons hdpay, andThen_of_ok herror, performDpay_retire]
    rfl

end Sys2Proof.Machine
end

section
/-! SUPPORT. The round trip (spec/45_container.md R200, R211): runs of CNT and DIN, the encoder's container as a header and a
payload, and DEC over such a container. -/

namespace Sys2Proof.Machine

open Sys2Proof Sys2Proof.Claims

/-! ## Runs of CNT and DIN -/

/-- Counting a text buffers it, and emits nothing. -/
theorem runCommands_cnt {text : List Byte} {s : State} (hs : Inv s) (hphase : s.phase = .idle ∨ s.phase = .eCount)
    (hroom : s.total.toNat + text.length ≤ s.params.maxLen) (hdelimiter : Config.delimiter ∉ text) :
    ∃ t, runCommands (text.map .cnt) s = some t ∧ Inv t ∧ (t.phase = .idle ∨ t.phase = .eCount) ∧
      t.total.toNat = s.total.toNat + text.length ∧ t.symbols = s.symbols ++ text ∧ t.pendOut = s.pendOut := by
  induction text generalizing s with
  | nil => exact ⟨s, rfl, hs, hphase, by simp, by simp, rfl⟩
  | cons b text ih =>
    rw [List.mem_cons, not_or] at hdelimiter
    rw [List.length_cons] at hroom
    obtain ⟨hb, hdelimiter⟩ := hdelimiter
    have hexec : exec (.cnt b) s = .next (retire (performCnt b s)) := exec_of_phase_or hphase rfl (by decide) (by decide)
    obtain ⟨-, hmax, -⟩ := hs.params_wf
    have htotal := toNat_add_one (v := s.total) (n := s.params.maxLen) (by omega) hmax
    have hfull : s.total.toNat ≠ s.params.maxLen := by omega
    have heq := performCnt_eq (Ne.symm hb) hfull
    have hcounted : (retire (performCnt b s)).total.toNat = s.total.toNat + 1 := by rw [heq]; exact htotal
    obtain ⟨-, -, hparams⟩ := exec_keeps_host hexec
    obtain ⟨t, hrun, ht, hp, htot, hsym, hout⟩ := ih (exec_inv hs hexec) (by simp [heq])
      (by rw [hcounted, hparams]; omega) hdelimiter
    refine ⟨t, (runCommands_cons hexec _).trans hrun, ht, hp, ?total, ?symbols, ?pendOut⟩
    case total => rw [htot, hcounted, List.length_cons]; omega
    case symbols =>
      rw [hsym, List.append_cons, ← performCnt_symbols (Ne.symm hb) hfull hs.symbuf_wf htotal]
      rfl
    case pendOut => rw [hout, heq]; rfl

/-- Loading bytes appends them to the container, and emits nothing. -/
theorem runCommands_din {bytes : List Byte} {s : State} (hs : Inv s) (hphase : s.phase = .idle ∨ s.phase = .dLoad)
    (hroom : s.clen.toNat + bytes.length ≤ s.params.maxClen) :
    ∃ t, runCommands (bytes.map .din) s = some t ∧ Inv t ∧ (t.phase = .idle ∨ t.phase = .dLoad) ∧
      t.container = s.container ++ bytes ∧ t.pendOut = s.pendOut := by
  induction bytes generalizing s with
  | nil => exact ⟨s, rfl, hs, hphase, by simp, rfl⟩
  | cons b bytes ih =>
    rw [List.length_cons] at hroom
    have hexec : exec (.din b) s = .next (retire (performDin b s)) := exec_of_phase_or hphase rfl (by decide) (by decide)
    obtain ⟨-, -, -, hmax, -⟩ := hs.params_wf
    have hclen := toNat_add_one (v := s.clen) (n := s.params.maxClen) (by omega) hmax
    have hfull : s.clen.toNat ≠ s.params.maxClen := by omega
    have heq := performDin_eq (b := b) hfull
    have hloaded : (retire (performDin b s)).clen.toNat = s.clen.toNat + 1 := by rw [heq]; exact hclen
    obtain ⟨-, -, hparams⟩ := exec_keeps_host hexec
    obtain ⟨t, hrun, ht, hp, hcontainer, hout⟩ := ih (exec_inv hs hexec) (by simp [heq])
      (by rw [hloaded, hparams]; omega)
    refine ⟨t, (runCommands_cons hexec _).trans hrun, ht, hp, ?container, ?pendOut⟩
    case container =>
      rw [hcontainer, List.append_cons, ← performDin_container hfull hs.cbuf_wf hclen]
      rfl
    case pendOut => rw [hout, heq]; rfl

/-! ## DEC over a header and a payload -/

/-- DEC over a header with its padding byte and a payload that is the codes of some entries in a row emits their keys
(45_container.md R200). -/
theorem performDec_of_isHeader {s : State} {keys packed : List Byte} {codes : List Bits} {pad : Byte}
    {entries : List (Byte × Bits)} (h : IsHeader s.container keys codes (pad :: packed)) (hpad : pad.toNat ≤ 7)
    (hpacked : packed ≠ []) (hentries : ∀ e ∈ entries, e ∈ keys.zip codes)
    (hbits : (packed.flatMap byteToBits).take (8 * packed.length - pad.toNat) = entries.flatMap Prod.snd) :
    perform .dec s = { emit (entries.map Prod.fst) (performDhdr s) with phase := .dDone } := by
  obtain ⟨-, hlt⟩ := length_rest_of_isHeader h
  have hpos := List.length_pos_of_ne_nil hpacked
  have hread : (performDhdr s).cbuf.read (performDhdr s).ppos.toNat = pad := performDhdr_read_ppos h
  have hpayload : (performDhdr s).payload = packed := performDhdr_payload h
  have hdt := performDhdr_dtList h
  have hroom : (performDhdr s).ppos.toNat + 1 < (performDhdr s).clen.toNat := by
    rw [List.length_cons] at hlt
    rw [performDhdr_ppos h, ← container_length, performDhdr_container h, List.length_cons]
    omega
  have hok : (performDhdr s).phase ≠ .error := by
    rw [performDhdr_of_isHeader h]
    exact nofun
  rw [perform, andThen_of_ok hok]
  refine performDpay_codes (by rwa [hread]) hroom ?prefixFree (fun e he => ?entries) ?bits
  case prefixFree =>
    rw [hdt, List.map_snd_zip h.paired.le]
    exact h.prefix_free
  case entries =>
    obtain ⟨hne, -⟩ := h.lengths e.2 (List.of_mem_zip (hentries e he)).2
    exact ⟨hdt ▸ hentries e he, List.ne_nil_of_length_pos hne⟩
  case bits => rw [logicalBits_eq_take, hpayload, hread, hbits]

/-! ## The encoder's container -/

section
variable {s t : State} (h : CodesGenerated s t) (hs : SpecInv s)
include h hs

/-- HDR's bytes are a header (45_container.md R195). -/
theorem CodesGenerated.isHeader (htotal : s.total ≠ 0) :
    IsHeader t.containerBytes t.orderList (t.orderList.map fun b => (t.ctAt b).bits) (t.pad :: t.packed) := by
  have hn := counted_length_le hs.no_delimiter
  have hpos : 1 ≤ s.counted.length := List.length_pos_of_ne_nil (counted_ne_nil hs.total_eq_sum htotal)
  have hlength := h.length_orderList
  have hcodes := h.map_bits_orderList hn
  obtain ⟨hof, htabn, ⟨horder, -⟩, -⟩ := h
  refine ⟨?layout, ?size, List.length_map _, ?delimiter, ?distinct, ?lengths, ?prefixFree, List.cons_ne_nil _ _⟩
  case layout =>
    rw [hlength, BitVec.ofNat_toNat, BitVec.setWidth_eq, List.flatMap_map]
    rfl
  case size => rw [hlength, htabn]; exact ⟨hpos, hn⟩
  case delimiter =>
    rw [horder, hof.1.mem_iff, State.counted, List.mem_filter]
    rintro ⟨-, hcounted⟩
    exact bne_iff_ne.mp hcounted hs.no_delimiter
  case distinct => rw [horder]; exact hof.nodup
  case lengths =>
    rw [hcodes, List.forall_mem_map]
    intro e he
    have hle := hof.code_length_le hn he
    exact ⟨List.length_pos_of_ne_nil (hof.code he).1, by omega⟩
  case prefixFree =>
    rw [hcodes, List.pairwise_map]
    exact (visit_partBefore 512 t.arena t.root).imp PartsBefore.not_prefix

/-- Every counted symbol is a key with a non-empty code. -/
theorem CodesGenerated.mem_orderList {b : Byte} (hb : b ∈ s.symbols) : b ∈ t.orderList ∧ (t.ctAt b).bits ≠ [] := by
  have hn := counted_length_le hs.no_delimiter
  have hvalid : (t.ctAt b).valid = true := by
    rw [h.valid_iff]
    intro hzero
    have hcount := hs.hist_counts b
    rw [hzero] at hcount
    exact (List.count_pos_iff.mpr hb).ne hcount
  have hmem := h.mem_codes hn hvalid
  obtain ⟨hof, -, ⟨horder, -⟩, -⟩ := h
  exact ⟨horder ▸ List.mem_map_of_mem hmem, (hof.code hmem).1⟩

/-- A counted text has at least one packed byte. -/
theorem CodesGenerated.packed_ne_nil (hsymbols : t.symbols = s.symbols) (hne : s.symbols ≠ []) : t.packed ≠ [] := by
  obtain ⟨b, text, htext⟩ := List.exists_cons_of_ne_nil hne
  have hcode := List.length_pos_of_ne_nil (h.mem_orderList hs (b := b) (by simp [htext])).2
  refine List.ne_nil_of_length_pos ?_
  rw [length_packed, stream, hsymbols, htext, List.flatMap_cons, List.length_append]
  omega

/-- The packed bytes hold the codes of the counted symbols, PAD bits of padding after them. -/
theorem CodesGenerated.take_packed (hsymbols : t.symbols = s.symbols)
    (hpad : t.pad = BitVec.ofNat 8 (padLength (bitLength s.histAt t.ctAt))) :
    t.pad.toNat ≤ 7 ∧ (t.packed.flatMap byteToBits).take (8 * t.packed.length - t.pad.toNat) = stream t := by
  have hle := padLength_le (stream t).length
  have hlength := congrArg List.length (packed_bits t)
  rw [flatMap_byteToBits_length, List.length_append, zeroBits, List.length_replicate] at hlength
  have hpadNat : t.pad.toNat = padLength (stream t).length := by
    rw [hpad, ← h.length_stream hs hsymbols]
    exact Nat.mod_eq_of_lt (by omega)
  refine ⟨hpadNat ▸ hle, ?_⟩
  rw [packed_bits]
  exact List.take_left' (by omega)

end

/-- DEC over the container of a counted text emits the text. -/
theorem performDec_container {s d : State} (hs : SpecInv s) (hphase : s.phase = .idle ∨ s.phase = .eCount)
    (htotal : s.total ≠ 0) (hd : d.container = s.generated.containerBytes) :
    perform .dec d = { emit s.symbols (performDhdr d) with phase := .dDone } := by
  have hgen := codesGenerated_generated hs hphase htotal
  have hsymbols := generated_symbols htotal
  generalize ht : s.generated = t at *
  have hne : s.symbols ≠ [] := by
    refine List.ne_nil_of_length_pos ?_
    rw [State.symbols, Memory.slice_length]
    exact Nat.pos_of_ne_zero fun h0 => htotal (BitVec.eq_of_toNat_eq h0)
  obtain ⟨hpad, htake⟩ := hgen.take_packed hs hsymbols (ht ▸ generated_pad htotal)
  have hheader := hgen.isHeader hs htotal
  rw [← hd] at hheader
  have hkeys : (s.symbols.map fun b => (b, (t.ctAt b).bits)).map Prod.fst = s.symbols := by
    rw [List.map_map]
    exact List.map_id _
  have hzip : t.orderList.zip (t.orderList.map fun b => (t.ctAt b).bits) =
      t.orderList.map fun b => (b, (t.ctAt b).bits) := by
    conv_lhs => enter [1]; rw [← List.map_id t.orderList]
    exact List.zip_map'
  refine (performDec_of_isHeader hheader hpad (hgen.packed_ne_nil hs hsymbols hne) (fun e he => ?entries) ?bits).trans
    (by rw [hkeys])
  case entries =>
    obtain ⟨b, hb, rfl⟩ := List.mem_map.mp he
    rw [hzip]
    exact List.mem_map_of_mem (hgen.mem_orderList hs hb).1
  case bits => rw [htake, stream, hsymbols, List.flatMap_map]

end Sys2Proof.Machine
end

section
/-! PROOFS. The statements on the container codec and the composites (spec/45_container.md R190 to R211). -/

namespace Sys2Proof.Machine

open Sys2Proof Sys2Proof.Claims

/-- Settles O38: the text is counted and ENC emits its container; the container, loaded, is a header and a payload that is
the codes of the text's symbols in a row, and DEC emits the keys of those codes. -/
theorem encodeThenDecodeReturnsTheText : Obligations.EncodeThenDecodeReturnsTheText := by
  intro p text hp hpos hlen hdelimiter
  obtain ⟨s, hcount, hs, hphase, htotal, hsymbols, hout⟩ :=
    runCommands_cnt (text := text) (resetWith_inv hp) (.inl rfl) (by simpa using hlen) hdelimiter
  have h0 : s.total ≠ 0 := fun h0 => by simp [h0] at htotal; omega
  have henc := exec_enc_counted hphase h0
  refine ⟨_, (runCommands_append hcount).trans (runCommands_cons henc _), withContainer_phase _,
    (exec_inv hs henc).err_none nofun, fun hfit => ?_⟩
  have hbytes := pendOut_enc h0
  rw [hout, resetWith_pendOut, List.nil_append] at hbytes
  rw [hbytes] at hfit ⊢
  obtain ⟨d, hload, hd, hphased, hcontainer, hdout⟩ :=
    runCommands_din (resetWith_inv hp) (.inl rfl) (by simpa using hfit)
  have hdec := exec_of_phase_or (i := .dec) hphased rfl (by decide) (by decide)
  have hdone := performDec_container hs.toSpecInv hphase h0 hcontainer
  refine ⟨_, (runCommands_append hload).trans (runCommands_cons hdec _), ?phase, ?err, ?text⟩
  case phase => rw [hdone]; rfl
  case err => exact (exec_inv hd hdec).err_none (by rw [hdone]; nofun)
  case text =>
    rw [hdone]
    change (performDhdr d).pendOut ++ s.symbols = text
    rw [performDhdr_pendOut, hdout, hsymbols]
    rfl

/-- Settles O32: the four parts in order, none of which raises once BUILD's own check has passed. -/
theorem encIsTheFourCommands : Obligations.EncIsTheFourCommands := by
  refine ⟨decode_encode .enc, (sequenceExactlyOutsideLegalPhases .enc).1, fun s hphase =>
    ⟨fun h0 => ?empty, fun h0 => ?counted⟩⟩
  case empty =>
    rw [exec_of_phase_or hphase rfl (by decide) (by decide), performEnc_empty h0]
    rfl
  case counted =>
    refine ⟨s.generated.withContainer, ?run, exec_enc_counted hphase h0, withContainer_phase _, ?err⟩
    case err => rw [withContainer_err, generated_err h0]
    case run => exact (runCommands_append (runCommands_build_gen hphase h0)).trans (runCommands_hdr_pack rfl)

/-- Settles O33: HDR's bytes and PACK's, the latter as many as the stream needs. -/
theorem containerLength : Obligations.ContainerLength := by
  intro s t hs he ht
  obtain ⟨hphase, h0⟩ := exec_enc_done he ht
  rw [exec_enc_counted hphase h0, Host.Outcome.next.injEq] at he
  subst he
  have hlength := (codesGenerated_generated hs hphase h0).length_containerBytes hs (generated_symbols h0)
  rw [withContainer_tabn, withContainer_ctAt, withContainer_bitlen, pendOut_enc h0, List.length_append, hlength]
  simp only [Nat.add_assoc]

/-- Settles O34: DIN's own check, then its effects on CBUF. -/
theorem dinLoadsOneByte : Obligations.DinLoadsOneByte := by
  refine fun b => ⟨(decode_eq_ok_iff_eq_encode _ _).mpr (wordOf_eq_shift_or 0x40 b).symm,
    (sequenceExactlyOutsideLegalPhases (.din b)).1, fun s hphase => ?_⟩
  have hexec : exec (.din b) s = .next (retire (performDin b s)) := exec_of_phase_or hphase rfl (by decide) (by decide)
  refine ⟨fun hfull => ?full, fun hroom => ⟨_, hexec, ?_⟩⟩
  case full =>
    rw [hexec, performDin_full hfull]
    rfl
  rw [performDin_eq hroom]
  exact ⟨rfl, Memory.read_write_same _ b, fun a ha => Memory.read_write_ne b ha⟩

/-- Settles O35: the parser accepts headers and nothing else, and DT reads back as it was written. -/
theorem dhdrAcceptsExactlyTheHeaders : Obligations.DhdrAcceptsExactlyTheHeaders := by
  refine ⟨decode_encode .dhdr, (sequenceExactlyOutsideLegalPhases .dhdr).1, fun s hphase => ?_⟩
  have hexec : exec .dhdr s = .next (retire (performDhdr s)) := exec_of_phase_or hphase rfl (by decide) (by decide)
  refine ⟨fun keys codes rest h => ⟨_, hexec, ?loaded, performDhdr_dtList h⟩, fun h => ⟨_, hexec, ?failed⟩⟩
  case loaded => exact congrArg retire (performDhdr_of_isHeader h)
  case failed =>
    rw [performDhdr_none (parseHeader_eq_none h)]
    rfl

/-- Settles O36: the walk splits the logical bits into codes and a rest; where no code begins another it reads the codes of
entries in a row as those entries. -/
theorem dpayDecodesThePayload : Obligations.DpayDecodesThePayload := by
  refine ⟨decode_encode .dpay, (sequenceExactlyOutsideLegalPhases .dpay).1, fun s hphase => ?_⟩
  intro p
  have hexec : exec .dpay s = .next (retire (performDpay s)) :=
    exec_of_phase hphase (by decide) (by decide)
  refine ⟨fun h => ?corrupted, fun hp hlt => ?walked, fun entries hp hlt hprefix hentries hbits => ?decoded⟩
  case corrupted =>
    rw [hexec, performDpay_corrupted h]
    rfl
  case walked =>
    obtain ⟨matched, left, hmatched, hleft, hsplit, hwalk⟩ :=
      walk_spec s.dtList (logicalBits s p) [] fun e _ hne hprefix => hne (List.prefix_nil.mp hprefix)
    refine ⟨matched, left, hmatched, hleft, hsplit, ?_⟩
    rw [hexec, performDpay_walk hp hlt hwalk]
    split <;> rfl
  case decoded =>
    rw [hexec, performDpay_codes hp hlt hprefix hentries hbits]
    rfl

/-- Settles O37: DPAY finds DHDR's ERROR and is ignored, or performs where DHDR ended. -/
theorem decIsTheTwoCommands : Obligations.DecIsTheTwoCommands :=
  ⟨decode_encode .dec, (sequenceExactlyOutsideLegalPhases .dec).1, fun _ hphase =>
    ⟨_, runCommands_dhdr_dpay hphase, exec_of_phase_or hphase rfl (by decide) (by decide)⟩⟩

/-- Settles O31: HDR's bytes are the header's. -/
theorem hdrEmitsTheHeader : Obligations.HdrEmitsTheHeader := by
  refine ⟨decode_encode .hdr, (sequenceExactlyOutsideLegalPhases .hdr).1, fun s hphase => ?_⟩
  exact exec_of_phase hphase (by decide) (by decide)

end Sys2Proof.Machine
end
